-- ==== Sys2Proof/Word.lean ====
section
/-! DEFINITION. The word types of the engine (00_scope.md R9, R10, R11; 30_encoding.md R81). -/

namespace Sys2Proof

/-- `u8` of 00_scope.md R10: a general register, a timer, a byte of memory, the immediate `nn`. -/
abbrev Byte := BitVec 8

/-- `u16` of 00_scope.md R10: `I`, `pc`, a call-stack entry, an instruction word. -/
abbrev Word := BitVec 16

/-- The 12-bit residual, and the address immediate `nnn` (30_encoding.md R81). -/
abbrev Addr12 := BitVec 12

/-- A 4-bit field of an instruction word (30_encoding.md R81). -/
abbrev Nibble := BitVec 4

/-- The number of a general register, 0x0 to 0xF (10_state.md R21). -/
abbrev Reg := Fin 16

/-- The flag register's number, 0xF (10_state.md R22; 00_scope.md R7). -/
abbrev vF : Reg := 15

/-- The number of bytes of memory (00_scope.md R7 `MEM_SIZE`). -/
abbrev memSize : Nat := 0x1000

/-- Where a program is loaded, and the reset value of `pc` (00_scope.md R7 `ROM_BASE`). -/
abbrev romBase : Nat := 0x200

end Sys2Proof
end

