-- ==== Sys2Proof/Syntax.lean ====
section
/-! DEFINITION. The 34 instructions of 30_encoding.md R95, one constructor for each row of spec/opcode_table.json.
Every operand has exactly the width of its field (R81, R82), the fields an instruction ignores included, so that a term
stands for one instruction word. -/

namespace Sys2Proof

inductive Instr where
  /-- 00E0 `CLS` (R120). -/
  | cls
  /-- 00EE `RET` (R140). -/
  | ret
  /-- 1nnn `JP nnn` (R141). -/
  | jp (nnn : Addr12)
  /-- 2nnn `CALL nnn` (R142). -/
  | call (nnn : Addr12)
  /-- 3xnn `SE Vx, nn` (R160). -/
  | seNn (x : Reg) (nn : Byte)
  /-- 4xnn `SNE Vx, nn` (R161). -/
  | sneNn (x : Reg) (nn : Byte)
  /-- 5xyN `SE Vx, Vy` (R162); N is ignored (R90). -/
  | seVy (x y : Reg) (n : Nibble)
  /-- 6xnn `LD Vx, nn` (R182). -/
  | ldNn (x : Reg) (nn : Byte)
  /-- 7xnn `ADD Vx, nn` (R183). -/
  | addNn (x : Reg) (nn : Byte)
  /-- 8xy0 `LD Vx, Vy` (R184). -/
  | ldVy (x y : Reg)
  /-- 8xy1 `OR Vx, Vy` (R185). -/
  | orVy (x y : Reg)
  /-- 8xy2 `AND Vx, Vy` (R186). -/
  | andVy (x y : Reg)
  /-- 8xy3 `XOR Vx, Vy` (R187). -/
  | xorVy (x y : Reg)
  /-- 8xy4 `ADD Vx, Vy` (R188). -/
  | addVy (x y : Reg)
  /-- 8xy5 `SUB Vx, Vy` (R189). -/
  | subVy (x y : Reg)
  /-- 8xy7 `SUBN Vx, Vy` (R190). -/
  | subnVy (x y : Reg)
  /-- 8xy6 `SHR Vx` (R191); y is in the word and not read. -/
  | shr (x y : Reg)
  /-- 8xyE `SHL Vx` (R192); y is in the word and not read. -/
  | shl (x y : Reg)
  /-- 9xyN `SNE Vx, Vy` (R163); N is ignored (R90). -/
  | sneVy (x y : Reg) (n : Nibble)
  /-- Annn `LD I, nnn` (R220). -/
  | ldI (nnn : Addr12)
  /-- Bnnn `JP V0, nnn` (R143). -/
  | jpV0 (nnn : Addr12)
  /-- Cxnn `RND Vx, nn` (R193). -/
  | rnd (x : Reg) (nn : Byte)
  /-- Dxyn `DRW Vx, Vy, n` (R121). -/
  | drw (x y : Reg) (n : Nibble)
  /-- Ex9E `SKP Vx` (R164). -/
  | skp (x : Reg)
  /-- ExA1 `SKNP Vx` (R165). -/
  | sknp (x : Reg)
  /-- Fx07 `LD Vx, DT` (R250). -/
  | ldVxDt (x : Reg)
  /-- Fx15 `LD DT, Vx` (R251). -/
  | ldDtVx (x : Reg)
  /-- Fx18 `LD ST, Vx` (R252). -/
  | ldStVx (x : Reg)
  /-- Fx1E `ADD I, Vx` (R221). -/
  | addI (x : Reg)
  /-- Fx0A `LD Vx, K` (R253). -/
  | ldVxK (x : Reg)
  /-- Fx29 `LD F, Vx` (R222). -/
  | ldF (x : Reg)
  /-- Fx33 `LD B, Vx` (R223). -/
  | ldB (x : Reg)
  /-- Fx55 `LD [I], Vx` (R224). -/
  | ldMemVx (x : Reg)
  /-- Fx65 `LD Vx, [I]` (R225). -/
  | ldVxMem (x : Reg)
deriving DecidableEq, Repr

end Sys2Proof
end

