-- ==== Sys2Proof/WellFormed.lean ====
section
/-! DEFINITION. What is checked before it is used. An `Instr` needs no check: its operand types have the widths of the
fields (30_encoding.md R81, R82), so every term is an instruction the hardware has (log 18). What is checked is an
instruction word against the opcode map (R91, R95), an instruction against the assembler's spelling (R93), and a ROM
image against the memory it must fit in (70_reset_and_hazards.md R343). -/

namespace Sys2Proof

/-- One row of the opcode map of 30_encoding.md R95: a word `w` matches it when `w &&& mask = pattern` (R91). -/
structure OpcodeRow where
  mnemonic : String
  mask : Word
  pattern : Word
deriving DecidableEq, Repr

def OpcodeRow.accepts (r : OpcodeRow) (w : Word) : Bool := w &&& r.mask == r.pattern

def opcodeRowsFlow : List OpcodeRow :=
  [⟨"CLS", 0xFFFF, 0x00E0⟩, ⟨"RET", 0xFFFF, 0x00EE⟩, ⟨"JP_nnn", 0xF000, 0x1000⟩, ⟨"CALL_nnn", 0xF000, 0x2000⟩,
   ⟨"SE_Vx__nn", 0xF000, 0x3000⟩, ⟨"SNE_Vx__nn", 0xF000, 0x4000⟩, ⟨"SE_Vx__Vy", 0xF000, 0x5000⟩,
   ⟨"LD_Vx__nn", 0xF000, 0x6000⟩, ⟨"ADD_Vx__nn", 0xF000, 0x7000⟩]

def opcodeRowsAlu : List OpcodeRow :=
  [⟨"LD_Vx__Vy", 0xF00F, 0x8000⟩, ⟨"OR_Vx__Vy", 0xF00F, 0x8001⟩, ⟨"AND_Vx__Vy", 0xF00F, 0x8002⟩,
   ⟨"XOR_Vx__Vy", 0xF00F, 0x8003⟩, ⟨"ADD_Vx__Vy", 0xF00F, 0x8004⟩, ⟨"SUB_Vx__Vy", 0xF00F, 0x8005⟩,
   ⟨"SUBN_Vx__Vy", 0xF00F, 0x8007⟩, ⟨"SHR_Vx", 0xF00F, 0x8006⟩, ⟨"SHL_Vx", 0xF00F, 0x800E⟩]

def opcodeRowsIndex : List OpcodeRow :=
  [⟨"SNE_Vx__Vy", 0xF000, 0x9000⟩, ⟨"LD_I__nnn", 0xF000, 0xA000⟩, ⟨"JP_V0__nnn", 0xF000, 0xB000⟩,
   ⟨"RND_Vx__nn", 0xF000, 0xC000⟩, ⟨"DRW_Vx__Vy__n", 0xF000, 0xD000⟩, ⟨"SKP_Vx", 0xF0FF, 0xE09E⟩,
   ⟨"SKNP_Vx", 0xF0FF, 0xE0A1⟩]

def opcodeRowsF : List OpcodeRow :=
  [⟨"LD_Vx__DT", 0xF0FF, 0xF007⟩, ⟨"LD_DT__Vx", 0xF0FF, 0xF015⟩, ⟨"LD_ST__Vx", 0xF0FF, 0xF018⟩,
   ⟨"ADD_I__Vx", 0xF0FF, 0xF01E⟩, ⟨"LD_Vx__K", 0xF0FF, 0xF00A⟩, ⟨"LD_F__Vx", 0xF0FF, 0xF029⟩,
   ⟨"LD_B__Vx", 0xF0FF, 0xF033⟩, ⟨"LD__I___Vx", 0xF0FF, 0xF055⟩, ⟨"LD_Vx___I", 0xF0FF, 0xF065⟩]

/-- The opcode map of 30_encoding.md R95, in its order. -/
def opcodeTable : List OpcodeRow := opcodeRowsFlow ++ opcodeRowsAlu ++ opcodeRowsIndex ++ opcodeRowsF

/-- The word is one of the 34 patterns (30_encoding.md R91); every other word is unrecognized (R92). -/
def recognizedWord (w : Word) : Bool := opcodeTable.any (·.accepts w)

/-- The words of 30_encoding.md R92, in its own terms. -/
def unrecognizedWord (w : Word) : Bool :=
  let low4 := w.toNat % 16
  let low8 := w.toNat % 256
  match w.toNat / 4096 with
  | 0x0 => w != 0x00E0#16 && w != 0x00EE#16
  | 0x8 => [0x8, 0x9, 0xA, 0xB, 0xC, 0xD, 0xF].contains low4
  | 0xE => !([0x9E, 0xA1].contains low8)
  | 0xF => !([0x07, 0x0A, 0x15, 0x18, 0x1E, 0x29, 0x33, 0x55, 0x65].contains low8)
  | _ => false

/-- The spelling an assembler emits: N = 0 in 5xyN and 9xyN (30_encoding.md R93). The engine runs the other spellings
all the same (R90). -/
def Instr.assembled : Instr → Bool
  | .seVy _ _ n => n == 0
  | .sneVy _ _ n => n == 0
  | _ => true

/-- The longest ROM image: 4096 - 0x200 bytes (70_reset_and_hazards.md R343). -/
abbrev romMax : Nat := memSize - romBase

/-- The loader must fail on a longer image (70_reset_and_hazards.md R343). -/
def romWellFormed (rom : List Byte) : Bool := rom.length ≤ romMax

end Sys2Proof
end

