-- ==== Sys2Proof/Decode.lean ====
section
/-! DEFINITION. The decoder (30_encoding.md R80 to R92), total on words and on bytes, rejecting by name, and the encoder
written from the formats of R82. -/

namespace Sys2Proof

/-! ## Fields (R81) -/

/-- The family, bits 15:12. -/
def fieldF (w : Word) : Nibble := w.extractLsb' 12 4

/-- The register field x, bits 11:8. -/
def fieldX (w : Word) : Reg := (w.extractLsb' 8 4).toFin

/-- The register field y, bits 7:4. -/
def fieldY (w : Word) : Reg := (w.extractLsb' 4 4).toFin

/-- The field n, bits 3:0. -/
def fieldN (w : Word) : Nibble := w.extractLsb' 0 4

/-- The field nn, bits 7:0. -/
def fieldNN (w : Word) : Byte := w.extractLsb' 0 8

/-- The residual, which is the field nnn, bits 11:0. -/
def fieldNNN (w : Word) : Addr12 := w.extractLsb' 0 12

/-- A register number as the four bits of its field. -/
def Reg.bits (x : Reg) : Nibble := BitVec.ofFin x

/-- Two bytes as a word, the first in the high bits (20_memory.md R60; 00_scope.md R10). -/
def wordOfBytes (hi lo : Byte) : Word := hi ++ lo

/-- The byte of a word that lies at the lower address (20_memory.md R60). -/
def highByte (w : Word) : Byte := w.extractLsb' 8 8

/-- The byte of a word that lies at the higher address (20_memory.md R60). -/
def lowByte (w : Word) : Byte := w.extractLsb' 0 8

/-! ## Decoding -/

/-- Why bytes are no instruction. The first four are the unrecognized words of R92, by family. -/
inductive DecodeReject where
  | family0
  | family8
  | familyE
  | familyF
  /-- Fewer than two bytes: an instruction is exactly one word (R80). -/
  | truncated
deriving DecidableEq, Repr

/-- Family 0x0 branches on the whole residual (R86). -/
def decode0 (w : Word) : Except DecodeReject Instr :=
  if fieldNNN w = 0x0E0#12 then .ok .cls
  else if fieldNNN w = 0x0EE#12 then .ok .ret
  else .error .family0

/-- Family 0x8 branches on n (R87). -/
def decode8 (w : Word) : Except DecodeReject Instr :=
  let x := fieldX w
  let y := fieldY w
  let n := fieldN w
  if n = 0x0#4 then .ok (.ldVy x y)
  else if n = 0x1#4 then .ok (.orVy x y)
  else if n = 0x2#4 then .ok (.andVy x y)
  else if n = 0x3#4 then .ok (.xorVy x y)
  else if n = 0x4#4 then .ok (.addVy x y)
  else if n = 0x5#4 then .ok (.subVy x y)
  else if n = 0x6#4 then .ok (.shr x y)
  else if n = 0x7#4 then .ok (.subnVy x y)
  else if n = 0xE#4 then .ok (.shl x y)
  else .error .family8

/-- Family 0xE branches on nn (R88). -/
def decodeE (w : Word) : Except DecodeReject Instr :=
  if fieldNN w = 0x9E#8 then .ok (.skp (fieldX w))
  else if fieldNN w = 0xA1#8 then .ok (.sknp (fieldX w))
  else .error .familyE

/-- Family 0xF branches on nn (R89). -/
def decodeF (w : Word) : Except DecodeReject Instr :=
  let x := fieldX w
  let nn := fieldNN w
  if nn = 0x07#8 then .ok (.ldVxDt x)
  else if nn = 0x0A#8 then .ok (.ldVxK x)
  else if nn = 0x15#8 then .ok (.ldDtVx x)
  else if nn = 0x18#8 then .ok (.ldStVx x)
  else if nn = 0x1E#8 then .ok (.addI x)
  else if nn = 0x29#8 then .ok (.ldF x)
  else if nn = 0x33#8 then .ok (.ldB x)
  else if nn = 0x55#8 then .ok (.ldMemVx x)
  else if nn = 0x65#8 then .ok (.ldVxMem x)
  else .error .familyF

/-- Decoding, a function of the 16-bit word alone (R84): families 0x0, 0x8, 0xE and 0xF branch on sub-fields, every other
family is one instruction (R85); the low nibble of families 0x5 and 0x9 is not looked at (R90). -/
def decode (w : Word) : Except DecodeReject Instr :=
  let f := fieldF w
  let x := fieldX w
  let y := fieldY w
  if f = 0x0#4 then decode0 w
  else if f = 0x1#4 then .ok (.jp (fieldNNN w))
  else if f = 0x2#4 then .ok (.call (fieldNNN w))
  else if f = 0x3#4 then .ok (.seNn x (fieldNN w))
  else if f = 0x4#4 then .ok (.sneNn x (fieldNN w))
  else if f = 0x5#4 then .ok (.seVy x y (fieldN w))
  else if f = 0x6#4 then .ok (.ldNn x (fieldNN w))
  else if f = 0x7#4 then .ok (.addNn x (fieldNN w))
  else if f = 0x8#4 then decode8 w
  else if f = 0x9#4 then .ok (.sneVy x y (fieldN w))
  else if f = 0xA#4 then .ok (.ldI (fieldNNN w))
  else if f = 0xB#4 then .ok (.jpV0 (fieldNNN w))
  else if f = 0xC#4 then .ok (.rnd x (fieldNN w))
  else if f = 0xD#4 then .ok (.drw x y (fieldN w))
  else if f = 0xE#4 then decodeE w
  else decodeF w

/-- Decoding of bytes in memory order: one instruction and the bytes after it (R80; 20_memory.md R60). -/
def decodeBytes : List Byte → Except DecodeReject (Instr × List Byte)
  | hi :: lo :: rest => (decode (wordOfBytes hi lo)).map (·, rest)
  | _ => .error .truncated

/-! ## Encoding: the formats of R82 -/

/-- Format NNN. -/
def formatNNN (f : Nibble) (nnn : Addr12) : Word := f ++ nnn

/-- Format XNN. -/
def formatXNN (f : Nibble) (x : Reg) (nn : Byte) : Word := f ++ (Reg.bits x ++ nn : BitVec 12)

/-- Formats XY and XYN: two registers and the low nibble. -/
def formatXYN (f : Nibble) (x y : Reg) (n : Nibble) : Word := f ++ (Reg.bits x ++ (Reg.bits y ++ n : BitVec 8) : BitVec 12)

/-- Format X: a register and a fixed low byte. -/
def formatX (f : Nibble) (x : Reg) (sub : Byte) : Word := formatXNN f x sub

/-- The word of an instruction (R82, R95). -/
def encode : Instr → Word
  | .cls => 0x00E0#16
  | .ret => 0x00EE#16
  | .jp nnn => formatNNN 0x1#4 nnn
  | .call nnn => formatNNN 0x2#4 nnn
  | .seNn x nn => formatXNN 0x3#4 x nn
  | .sneNn x nn => formatXNN 0x4#4 x nn
  | .seVy x y n => formatXYN 0x5#4 x y n
  | .ldNn x nn => formatXNN 0x6#4 x nn
  | .addNn x nn => formatXNN 0x7#4 x nn
  | .ldVy x y => formatXYN 0x8#4 x y 0x0#4
  | .orVy x y => formatXYN 0x8#4 x y 0x1#4
  | .andVy x y => formatXYN 0x8#4 x y 0x2#4
  | .xorVy x y => formatXYN 0x8#4 x y 0x3#4
  | .addVy x y => formatXYN 0x8#4 x y 0x4#4
  | .subVy x y => formatXYN 0x8#4 x y 0x5#4
  | .shr x y => formatXYN 0x8#4 x y 0x6#4
  | .subnVy x y => formatXYN 0x8#4 x y 0x7#4
  | .shl x y => formatXYN 0x8#4 x y 0xE#4
  | .sneVy x y n => formatXYN 0x9#4 x y n
  | .ldI nnn => formatNNN 0xA#4 nnn
  | .jpV0 nnn => formatNNN 0xB#4 nnn
  | .rnd x nn => formatXNN 0xC#4 x nn
  | .drw x y n => formatXYN 0xD#4 x y n
  | .skp x => formatX 0xE#4 x 0x9E#8
  | .sknp x => formatX 0xE#4 x 0xA1#8
  | .ldVxDt x => formatX 0xF#4 x 0x07#8
  | .ldVxK x => formatX 0xF#4 x 0x0A#8
  | .ldDtVx x => formatX 0xF#4 x 0x15#8
  | .ldStVx x => formatX 0xF#4 x 0x18#8
  | .addI x => formatX 0xF#4 x 0x1E#8
  | .ldF x => formatX 0xF#4 x 0x29#8
  | .ldB x => formatX 0xF#4 x 0x33#8
  | .ldMemVx x => formatX 0xF#4 x 0x55#8
  | .ldVxMem x => formatX 0xF#4 x 0x65#8

/-- The instruction the decoder reads from the table's bits `w`: the word laid out big-endian (20_memory.md R60) and
decoded from those bytes. Bits above `nbits` are zero. -/
def decodeTableWord (nbits w : Nat) : Option Instr :=
  let word := BitVec.ofNat 16 (w % 2 ^ nbits)
  match decodeBytes [highByte word, lowByte word] with
  | .ok (i, _) => some i
  | .error _ => none

end Sys2Proof
end

