-- ==== Sys2Proof/Config.lean ====
section
/-! DEFINITION. What the source leaves open: the named parameters of 00_scope.md R8 and the free values. The values the
spec gives for FONT and FETCH_BELOW_ROM stand in Machine/Params.lean. -/

namespace Sys2Proof

/-- The two values of the parameter FETCH_BELOW_ROM (20_memory.md R58). -/
inductive FetchPolicy where
  | fault
  | execute
deriving DecidableEq, Repr, Inhabited

/-- The five instructions that write both a result and a flag: 8xy4, 8xy5, 8xy7, 8xy6, 8xyE (44_alu.md R181). -/
inductive FlagOp where
  | add
  | sub
  | subn
  | shr
  | shl
deriving DecidableEq, Repr, Inhabited

/-- The candidates of 44_alu.md R181 for the final VF when a flag-writing instruction has VF as its destination. -/
inductive VfCandidate where
  /-- The flag is written last. -/
  | flagLast
  /-- The result is written last. -/
  | resultLast
  /-- The statements of the source's table in the order they stand there. -/
  | literalOrder
deriving DecidableEq, Repr, Inhabited

namespace Config

/-- FREE VALUE (log 10): which candidate of 44_alu.md R181 the hardware follows, for an operation and its operands. -/
opaque vfChoice : FlagOp → Byte → Byte → VfCandidate

/-- FREE VALUE (log 8): the keypad input of a cycle whose input is not already known (60_exceptions.md R319). -/
opaque freeKeys : Nat → Vector Bool 16

/-- FREE VALUE (log 8): the random byte of a cycle whose input is not already known (44_alu.md R193). -/
opaque freeRnd : Nat → Byte

/-- FREE VALUE (log 9): how many ticks the host makes before a cycle whose input is not already known
(60_exceptions.md R317). -/
opaque freeTicks : Nat → Nat

end Config

end Sys2Proof
end

