-- ==== Sys2Proof/Machine/Params.lean ====
section
/-! DEFINITION. The values this spec gives two of the parameters of 00_scope.md R8. -/

namespace Sys2Proof.Machine

/-- FETCH_BELOW_ROM: the spec's value (20_memory.md R58, D13). DESIGN CHOICE of the spec (log 12); safe. -/
def fetchBelowRom : FetchPolicy := .fault

/-- FONT, glyphs 0 to 7: the spec's default table (20_memory.md R55, D11). PRESUMED (log 7); unsafe. -/
def fontLow : List Byte :=
  [0xF0, 0x90, 0x90, 0x90, 0xF0,
   0x20, 0x60, 0x20, 0x20, 0x70,
   0xF0, 0x10, 0xF0, 0x80, 0xF0,
   0xF0, 0x10, 0xF0, 0x10, 0xF0,
   0x90, 0x90, 0xF0, 0x10, 0x10,
   0xF0, 0x80, 0xF0, 0x10, 0xF0,
   0xF0, 0x80, 0xF0, 0x90, 0xF0,
   0xF0, 0x10, 0x20, 0x40, 0x40]

/-- FONT, glyphs 8 to F. -/
def fontHigh : List Byte :=
  [0xF0, 0x90, 0xF0, 0x90, 0xF0,
   0xF0, 0x90, 0xF0, 0x10, 0xF0,
   0xF0, 0x90, 0xF0, 0x90, 0x90,
   0xE0, 0x90, 0xE0, 0x90, 0xE0,
   0xF0, 0x80, 0x80, 0x80, 0xF0,
   0xE0, 0x90, 0x90, 0x90, 0xE0,
   0xF0, 0x80, 0xF0, 0x80, 0xF0,
   0xF0, 0x80, 0xF0, 0x80, 0x80]

/-- FONT: the 80 bytes at 0x000 to 0x04F, glyph d at 5d (20_memory.md R54, R55). -/
def font : List Byte := fontLow ++ fontHigh

/-- FONT_BASE (20_memory.md R54). -/
def fontBase : Nat := 0x000

end Sys2Proof.Machine
end

