-- ==== Sys2Proof/Machine/State.lean ====
section
/-! DEFINITION. The state of the engine (10_state.md R20 to R37), as plain data, and its value after reset. -/

namespace Sys2Proof.Machine

/-- A framebuffer pixel: fully off or fully on (10_state.md R31). -/
inductive Pixel where
  | off
  | on
deriving DecidableEq, Repr, Inhabited

/-- The 64 by 32 framebuffer, row-major: row y, then column x (10_state.md R31). -/
abbrev Framebuffer := Vector (Vector Pixel 64) 32

/-- Memory (20_memory.md R50): the listed bytes, addresses strictly rising, none equal to what an unlisted address reads
as (`Memory.wf` in Machine/Ops.lean). -/
abbrev Memory := List Host.Cell

/-- The event codes of 60_exceptions.md R302. -/
inductive EventCode where
  | stackOverflow
  | stackUnderflow
  | unrecognizedOpcode
  | memRangeFetch
  | memRangeData
  | keyRange
  | fetchReserved
deriving DecidableEq, Repr

/-- An event record (60_exceptions.md R311): `instr` is absent for fetch faults, `info` is the extra value of R302's last
column. -/
structure Event where
  code : EventCode
  pc : Word
  instr : Option Word
  info : Option Nat
deriving DecidableEq, Repr

/-- What the host supplies around one cycle: the timer ticks it makes before it (60_exceptions.md R316, R317), the keypad
input (R319) and the random byte (R321). -/
structure CycleInput where
  keys : Vector Bool 16
  rnd : Byte
  ticks : Nat
deriving DecidableEq, Repr

/-- The state record of 10_state.md R20, and three fields of the model's own for the host's inputs (R35; log 8). -/
structure State where
  /-- The general registers V0 to VF (R21). -/
  V : Vector Byte 16
  /-- The index register (R24). -/
  I : Word
  /-- The program counter (R25). -/
  pc : Word
  /-- The call-stack entries (R26). -/
  S : Vector Word 16
  /-- The stack pointer (R27): none is -1, empty; otherwise the index of the top entry (log 14). -/
  SP : Option (Fin 16)
  /-- The delay timer (R28). -/
  DT : Byte
  /-- The sound timer (R29). -/
  ST : Byte
  /-- The keypad snapshot (R30). -/
  K : Vector Bool 16
  /-- The framebuffer (R31). -/
  FB : Framebuffer
  /-- The memory (R32). -/
  M : Memory
  /-- The report log, oldest first (R33). -/
  log : List Event
  /-- The fault state (R34). -/
  halted : Option Event
  /-- MODEL's own: the random byte of the current cycle. -/
  rnd : Byte
  /-- MODEL's own: the inputs already known for the coming cycles; beyond them every input is a free value. -/
  inputs : List CycleInput
  /-- MODEL's own: the counter that gives every cycle its own free input. -/
  cycleNo : Nat
deriving DecidableEq, Repr

/-- Why the machine has no next state. -/
inductive Fault where
  /-- Raised by a cycle of an engine that a fault has already halted: it has no cycle step (40_cycle.md R107). Safe: the
  fault itself was taken as a next state, as 60_exceptions.md R301 and R310 describe it (log 1). -/
  | halted (e : Event)
deriving DecidableEq, Repr

/-- Why the model gives no meaning. -/
inductive Refusal where
  /-- Raised by `exec` for an instruction without a meaning; no instruction of this model is left so. Safe. -/
  | notModelled (mnemonic : String)
deriving DecidableEq, Repr

/-- The state that construction leaves (70_reset_and_hazards.md R340; 10_state.md R40 to R49). The spec's values: `pc`,
`SP`, `DT`, `ST`, the font (which unlisted memory reads as), `log`, `halted`. DESIGN CHOICE, unsafe: `V`, `I` (log 2), `S`
(log 3), `FB` (log 4), `K` (log 5), the other bytes of memory (log 6), the model's own fields (log 8). -/
def State.reset : State where
  V := Vector.replicate 16 0
  I := 0
  pc := 0x200
  S := Vector.replicate 16 0
  SP := none
  DT := 0
  ST := 0
  K := Vector.replicate 16 false
  FB := Vector.replicate 32 (Vector.replicate 64 .off)
  M := []
  log := []
  halted := none
  rnd := 0
  inputs := []
  cycleNo := 0

end Sys2Proof.Machine
end

