-- ==== Sys2Proof/Machine/Ops.lean ====
section
/-! DEFINITION. The named operations over memory, registers, stack, framebuffer, events and the host's inputs. -/

namespace Sys2Proof.Machine

/-! ## Memory (20_memory.md R50 to R53, R59, R70) -/

/-- What an address that is not listed reads as: the font at 0x000 to 0x04F (20_memory.md R54, 10_state.md R43), and 0x00
elsewhere (DESIGN CHOICE, log 6; unsafe: R44 leaves those bytes launch values). -/
def Memory.unlisted (a : Nat) : Byte := if a < 80 then font.getD a 0 else 0

/-- The byte at `a` (R53 `MemRead`, after its range check). -/
def Memory.read : Memory → Nat → Byte
  | [], a => Memory.unlisted a
  | (b, u) :: m, a => if a = b then u else if a < b then Memory.unlisted a else Memory.read m a

/-- A cell in front of a list, left out where it says what an unlisted address reads as. -/
def Memory.put (a : Nat) (v : Byte) (m : Memory) : Memory := if v = Memory.unlisted a then m else (a, v) :: m

/-- Store the byte `v` at `a` (R53 `MemWrite`, after its range check), keeping the canonical form. -/
def Memory.write : Memory → Nat → Byte → Memory
  | [], a, v => Memory.put a v []
  | (b, u) :: m, a, v =>
    if a < b then Memory.put a v ((b, u) :: m)
    else if a = b then Memory.put a v m
    else (b, u) :: Memory.write m a v

/-- The canonical form: addresses strictly rising, inside the address space, no entry equal to the unlisted value. -/
abbrev Memory.wf (m : Memory) : Prop :=
  m.Pairwise (fun c d => c.1 < d.1) ∧ ∀ c ∈ m, c.1 < memSize ∧ c.2 ≠ Memory.unlisted c.1

/-- Store bytes at ascending addresses (R70). -/
def Memory.storeBytes (m : Memory) (base : Nat) : List Byte → Memory
  | [] => m
  | b :: bs => Memory.storeBytes (m.write base b) (base + 1) bs

/-- The `n` bytes from `base` at ascending addresses (R70). -/
def Memory.loadBytes (m : Memory) (base n : Nat) : List Byte := (List.range n).map fun k => m.read (base + k)

/-- The range check of an access to `n` bytes from `base` (R51, R52): the lowest address above 0xFFF among them, if any. -/
def firstBad (base n : Nat) : Option Nat := if n = 0 ∨ base + n ≤ memSize then none else some (max base memSize)

/-! ## General registers (10_state.md R21) -/

/-- V[x]. -/
def State.getV (s : State) (x : Reg) : Byte := s.V[x.val]

/-- V[x] <- b. -/
def State.setV (s : State) (x : Reg) (b : Byte) : State := { s with V := s.V.set x.val b }

/-- V[j], V[j+1], ... <- the bytes, in this order. -/
def setRegs (V : Vector Byte 16) (j : Nat) : List Byte → Vector Byte 16
  | [] => V
  | b :: bs => setRegs (V.setIfInBounds j b) (j + 1) bs

/-- The values of V0 to V[x]. -/
def State.regsUpTo (s : State) (x : Reg) : List Byte := s.V.toList.take (x.val + 1)

/-! ## I, pc, timers, memory, framebuffer -/

/-- I <- w. -/
def State.setI (s : State) (w : Word) : State := { s with I := w }

/-- pc <- w. -/
def State.setPc (s : State) (w : Word) : State := { s with pc := w }

/-- `skip` of 00_scope.md R14, taken where the condition holds. -/
def State.skipIf (s : State) (c : Bool) : State := { s with pc := if c then s.pc + 2 else s.pc }

/-- The address of the executing instruction, from the post-fetch pc (60_exceptions.md R311). -/
def State.pcInstr (s : State) : Word := s.pc - 2

/-- DT <- b. -/
def State.setDT (s : State) (b : Byte) : State := { s with DT := b }

/-- ST <- b. -/
def State.setST (s : State) (b : Byte) : State := { s with ST := b }

/-- M <- m. -/
def State.setM (s : State) (m : Memory) : State := { s with M := m }

/-- FB <- fb. -/
def State.setFB (s : State) (fb : Framebuffer) : State := { s with FB := fb }

/-! ## Call stack (10_state.md R26, R27) -/

/-- The stack pointer as the integer of R27: -1 is empty. -/
def spToInt : Option (Fin 16) → Int
  | none => -1
  | some k => k.val

/-- SP + 1 while the stack is not full (R27). -/
def spUp : Option (Fin 16) → Option (Fin 16)
  | none => some 0
  | some k => if h : k.val + 1 < 16 then some ⟨k.val + 1, h⟩ else some k

/-- SP - 1 for a stack whose top is entry `k` (R27). -/
def spDown (k : Fin 16) : Option (Fin 16) :=
  if k.val = 0 then none else some ⟨k.val - 1, by omega⟩

/-- SP = 15: sixteen entries are used (R27). -/
def spFull (sp : Option (Fin 16)) : Bool := sp == some 15

/-- The push of R27: `SP <- SP + 1; S[SP] <- value`, on a stack that is not full. -/
def State.push (s : State) (value : Word) : State :=
  match spUp s.SP with
  | none => s
  | some k => { s with SP := some k, S := s.S.set k.val value }

/-! ## Framebuffer (10_state.md R31) -/

/-- FB[y][x]. -/
def Framebuffer.get (fb : Framebuffer) (y x : Nat) : Pixel :=
  if h : y < 32 ∧ x < 64 then (fb[y]'h.1)[x]'h.2 else .off

/-- FB[y][x] <- p. -/
def Framebuffer.put (fb : Framebuffer) (y x : Nat) (p : Pixel) : Framebuffer :=
  if h : y < 32 then fb.set y ((fb[y]'h).setIfInBounds x p) else fb

/-- Every pixel OFF. -/
def Framebuffer.clear : Framebuffer := Vector.replicate 32 (Vector.replicate 64 .off)

/-- The other value of a pixel (41_display.md R121). -/
def Pixel.flip : Pixel → Pixel
  | .off => .on
  | .on => .off

/-! ## Events: taking a report or a fault (60_exceptions.md R300 to R311). There is no return from one (R315). -/

/-- The spec's number of an event code (R302). -/
def EventCode.number : EventCode → Nat
  | .stackOverflow => 1
  | .stackUnderflow => 2
  | .unrecognizedOpcode => 3
  | .memRangeFetch => 16
  | .memRangeData => 17
  | .keyRange => 18
  | .fetchReserved => 19

/-- The class column of R302: true for a fault, false for a report. -/
def EventCode.isFault : EventCode → Bool
  | .stackOverflow => false
  | .stackUnderflow => false
  | .unrecognizedOpcode => false
  | .memRangeFetch => true
  | .memRangeData => true
  | .keyRange => true
  | .fetchReserved => true

/-- Taking an event (R301): it is appended to `log`, and a fault is stored in `halted` too; nothing else changes (R310). -/
def State.takeEvent (s : State) (e : Event) : State :=
  { s with log := s.log ++ [e], halted := if e.code.isFault then some e else s.halted }

/-- The event of a handler that runs the instruction word `w` (R311). -/
def State.handlerEvent (s : State) (c : EventCode) (w : Word) (info : Option Nat) : Event :=
  { code := c, pc := s.pcInstr, instr := some w, info := info }

/-- A handler's report or fault for the instruction word `w`. -/
def State.raise (s : State) (c : EventCode) (w : Word) (info : Option Nat) : State :=
  s.takeEvent (s.handlerEvent c w info)

/-- A fetch fault: the pc at the start of the cycle, no instruction word (R306, R309, R311). -/
def State.raiseFetch (s : State) (c : EventCode) : State :=
  s.takeEvent { code := c, pc := s.pc, instr := none, info := none }

/-! ## The cycle driver's parts (40_cycle.md R100 to R105) -/

/-- Fetch (R100, R101): FetchReserved first, then MemRangeFetch, then the big-endian word at pc. -/
def fetch (policy : FetchPolicy) (s : State) : Except EventCode Word :=
  if s.pc.toNat < romBase ∧ policy = .fault then .error .fetchReserved
  else if s.pc.toNat + 1 > 0xFFF then .error .memRangeFetch
  else .ok (wordOfBytes (s.M.read s.pc.toNat) (s.M.read (s.pc.toNat + 1)))

/-- After a successful fetch: pc + 2, the keypad snapshot, and the cycle's random byte, before the handler (R102, R103). -/
def State.afterFetch (s : State) (keys : Vector Bool 16) (rnd : Byte) : State :=
  { s with pc := s.pc + 2, K := keys, rnd := rnd }

/-- The unrecognized-opcode handler (R105). -/
def State.unrecognized (s : State) (w : Word) : State := s.raise .unrecognizedOpcode w none

/-! ## The host's actions (60_exceptions.md R316, R317, R325; 70_reset_and_hazards.md R342) -/

/-- One tick of one timer (R316). -/
def tickDown (t : Byte) : Byte := if t.toNat > 0 then t - 1 else t

/-- The host's timer tick, defined on every state (R316). -/
def State.tick (s : State) : State := { s with DT := tickDown s.DT, ST := tickDown s.ST }

/-- `n` ticks of one timer at once. -/
def tickDownBy (n : Nat) (t : Byte) : Byte := if t = 0 then 0 else BitVec.ofNat 8 (t.toNat - n)

/-- `n` ticks at once, equal to `n` times `tick`. -/
def State.ticks (s : State) (n : Nat) : State := { s with DT := tickDownBy n s.DT, ST := tickDownBy n s.ST }

/-- The host's input to the next cycle: the first one already known, else a free value (R317, R319, R321; log 8, log 9). -/
def State.nextInput (s : State) : CycleInput :=
  match s.inputs with
  | i :: _ => i
  | [] => { keys := Config.freeKeys s.cycleNo, rnd := Config.freeRnd s.cycleNo, ticks := Config.freeTicks s.cycleNo }

/-- The state once the host has acted before the next cycle: its input taken and its ticks made (R317). -/
def State.hostActs (s : State) : State :=
  { s.ticks s.nextInput.ticks with inputs := s.inputs.tail, cycleNo := s.cycleNo + 1 }

/-- The ROM load: it fails on an image that would overflow memory (70_reset_and_hazards.md R342, R343). -/
def State.loadRom (s : State) (rom : List Byte) : Option State :=
  if romWellFormed rom then some (s.setM (s.M.storeBytes romBase rom)) else none

end Sys2Proof.Machine
end

