-- ==== Sys2Proof/Machine/Operands.lean ====
section
/-! DEFINITION. Operand forms: immediates, effective addresses, sprite coordinates, decimal digits, keys (30_encoding.md
R83; 20_memory.md R52; 41_display.md R121, R122; 45_index_memory.md R222, R223). -/

namespace Sys2Proof.Machine

/-- `zext_16(nnn)` (30_encoding.md R83). -/
def zextAddr (nnn : Addr12) : Word := nnn.setWidth 16

/-- `zext_16` of a register's byte (42_flow.md R143, 45_index_memory.md R221). -/
def zextByte (b : Byte) : Word := b.setWidth 16

/-- The effective address I + k, an unbounded integer (20_memory.md R52). -/
def State.effAddr (s : State) (k : Nat) : Nat := s.I.toNat + k

/-- The address of the glyph for the value of a register, not masked (45_index_memory.md R222). -/
def glyphAddr (b : Byte) : Word := BitVec.ofNat 16 (fontBase + b.toNat * 5)

/-- The decimal digits of a byte: hundreds, tens, ones (45_index_memory.md R223). -/
def bcdDigits (b : Byte) : List Byte :=
  [BitVec.ofNat 8 (b.toNat / 100), BitVec.ofNat 8 (b.toNat / 10 % 10), BitVec.ofNat 8 (b.toNat % 10)]

/-- The sprite's origin column `x0` (41_display.md R121). -/
def State.originX (s : State) (x : Reg) : Nat := (s.getV x).toNat % 64

/-- The sprite's origin row `y0` (41_display.md R121). -/
def State.originY (s : State) (y : Reg) : Nat := (s.getV y).toNat % 32

/-- How many bytes Dxyn reads from I on: all n rows where none is clipped, else up to the first clipped row, that one
included (41_display.md R122). -/
def spriteBytesRead (y0 n : Nat) : Nat := if y0 + n ≤ 32 then n else 32 - y0 + 1

/-- The sixteen key numbers in ascending order (46_timer_key.md R253). -/
def keyOrder : List (Fin 16) := [0, 1, 2, 3, 4, 5, 6, 7, 8, 9, 10, 11, 12, 13, 14, 15]

/-- The first pressed key in ascending order (46_timer_key.md R253). -/
def firstKey (K : Vector Bool 16) : Option (Fin 16) := keyOrder.find? fun k => K[k.val]

end Sys2Proof.Machine
end

