-- ==== Sys2Proof/Machine/Flags.lean ====
section
/-! DEFINITION. The flag computations: carry, no-borrow and the bit shifted out, and the write step of the five
instructions that write a result and a flag (44_alu.md R180, R181, R188 to R192). -/

namespace Sys2Proof.Machine

/-- The result of a flag-writing operation on a = V[x] and b = V[y] (44_alu.md R188 to R192). -/
def flagOpResult : FlagOp → Byte → Byte → Byte
  | .add, a, b => BitVec.ofNat 8 ((a.toNat + b.toNat) % 256)
  | .sub, a, b => BitVec.ofInt 8 (((a.toNat : Int) - b.toNat) % 256)
  | .subn, a, b => BitVec.ofInt 8 (((b.toNat : Int) - a.toNat) % 256)
  | .shr, a, _ => a >>> 1
  | .shl, a, _ => a <<< 1

/-- A condition as the flag's value. -/
def flagBit (c : Bool) : Byte := if c then 1 else 0

/-- The flag of a flag-writing operation: carry, no borrow, or the bit shifted out (44_alu.md R180, R188 to R192). -/
def flagOpFlag : FlagOp → Byte → Byte → Byte
  | .add, a, b => flagBit (decide (a.toNat + b.toNat > 255))
  | .sub, a, b => flagBit (decide (a.toNat ≥ b.toNat))
  | .subn, a, b => flagBit (decide (b.toNat ≥ a.toNat))
  | .shr, a, _ => a &&& 1
  | .shl, a, _ => a >>> 7

/-- The final VF where the statements of the source's table run in the order they stand there, with x = F (44_alu.md
R181): the flag for the three arithmetic ones, the shift of the flag for the two shifts. -/
def flagOpLiteral : FlagOp → Byte → Byte → Byte
  | .add, a, b => flagOpFlag .add a b
  | .sub, a, b => flagOpFlag .sub a b
  | .subn, a, b => flagOpFlag .subn a b
  | .shr, a, b => flagOpFlag .shr a b >>> 1
  | .shl, a, b => flagOpFlag .shl a b <<< 1

/-- VF_DEST(op, a, b) of 44_alu.md R181: OPEN, one of its three candidates; which one is a free value (log 10). -/
def vfDest (op : FlagOp) (a b : Byte) : Byte :=
  match Config.vfChoice op a b with
  | .flagLast => flagOpFlag op a b
  | .resultLast => flagOpResult op a b
  | .literalOrder => flagOpLiteral op a b

/-- The write step of 44_alu.md R181. -/
def State.writeFlagOp (s : State) (op : FlagOp) (x : Reg) (a b : Byte) : State :=
  if x = vF then s.setV vF (vfDest op a b)
  else (s.setV x (flagOpResult op a b)).setV vF (flagOpFlag op a b)

end Sys2Proof.Machine
end

