-- ==== Sys2Proof/Machine/Alu.lean ====
section
/-! DEFINITION. Register loads, arithmetic, logic, shifts and the random load (44_alu.md R180 to R193). -/

namespace Sys2Proof.Machine

/-- 6xnn `LD Vx, nn` (R182). -/
def execLdNn (x : Reg) (nn : Byte) (s : State) : Host.Outcome State Fault Refusal := .next (s.setV x nn)

/-- 7xnn `ADD Vx, nn` (R183): no flag. -/
def execAddNn (x : Reg) (nn : Byte) (s : State) : Host.Outcome State Fault Refusal := .next (s.setV x (s.getV x + nn))

/-- 8xy0 `LD Vx, Vy` (R184). -/
def execLdVy (x y : Reg) (s : State) : Host.Outcome State Fault Refusal := .next (s.setV x (s.getV y))

/-- 8xy1 `OR Vx, Vy` (R185). -/
def execOrVy (x y : Reg) (s : State) : Host.Outcome State Fault Refusal := .next (s.setV x (s.getV x ||| s.getV y))

/-- 8xy2 `AND Vx, Vy` (R186). -/
def execAndVy (x y : Reg) (s : State) : Host.Outcome State Fault Refusal := .next (s.setV x (s.getV x &&& s.getV y))

/-- 8xy3 `XOR Vx, Vy` (R187). -/
def execXorVy (x y : Reg) (s : State) : Host.Outcome State Fault Refusal := .next (s.setV x (s.getV x ^^^ s.getV y))

/-- 8xy4 `ADD Vx, Vy` (R188). -/
def execAddVy (x y : Reg) (s : State) : Host.Outcome State Fault Refusal :=
  .next (s.writeFlagOp .add x (s.getV x) (s.getV y))

/-- 8xy5 `SUB Vx, Vy` (R189). -/
def execSubVy (x y : Reg) (s : State) : Host.Outcome State Fault Refusal :=
  .next (s.writeFlagOp .sub x (s.getV x) (s.getV y))

/-- 8xy7 `SUBN Vx, Vy` (R190). -/
def execSubnVy (x y : Reg) (s : State) : Host.Outcome State Fault Refusal :=
  .next (s.writeFlagOp .subn x (s.getV x) (s.getV y))

/-- 8xy6 `SHR Vx` (R191): V[y] is not read, so 0 stands for b (log 11). -/
def execShr (x _y : Reg) (s : State) : Host.Outcome State Fault Refusal := .next (s.writeFlagOp .shr x (s.getV x) 0)

/-- 8xyE `SHL Vx` (R192): V[y] is not read, so 0 stands for b (log 11). -/
def execShl (x _y : Reg) (s : State) : Host.Outcome State Fault Refusal := .next (s.writeFlagOp .shl x (s.getV x) 0)

/-- Cxnn `RND Vx, nn` (R193): the cycle's random byte, a free draw (log 8), masked. -/
def execRnd (x : Reg) (nn : Byte) (s : State) : Host.Outcome State Fault Refusal := .next (s.setV x (s.rnd &&& nn))

end Sys2Proof.Machine
end

