-- ==== Sys2Proof/Machine/Display.lean ====
section
/-! DEFINITION. The display instructions and the collision detector (41_display.md R120 to R125). -/

namespace Sys2Proof.Machine

/-- 00E0 `CLS` (R120). -/
def execCls (s : State) : Host.Outcome State Fault Refusal := .next (s.setFB Framebuffer.clear)

/-- The column loop of R121 over the columns `c` still to draw, for the row at y = y0 + r with the sprite byte `b`: it
stops at the right edge; a set bit (bit 7 - c) toggles its pixel, and is a collision where the pixel was ON. -/
def drawColumns (b : Byte) (y x0 : Nat) : List Nat → Framebuffer × Bool → Framebuffer × Bool
  | [], acc => acc
  | c :: cs, (fb, hit) =>
    if x0 + c ≥ 64 then (fb, hit)
    else if b.getLsbD (7 - c) then
      let p := fb.get y (x0 + c)
      drawColumns b y x0 cs (fb.put y (x0 + c) p.flip, hit || p == .on)
    else drawColumns b y x0 cs (fb, hit)

/-- The row loop of R121 over the rows `r` still to draw: a row's byte is read, then the loop stops at the bottom edge. -/
def drawRows (m : Memory) (base y0 x0 : Nat) : List Nat → Framebuffer × Bool → Framebuffer × Bool
  | [], acc => acc
  | r :: rs, acc =>
    let b := m.read (base + r)
    if y0 + r ≥ 32 then acc
    else drawRows m base y0 x0 rs (drawColumns b (y0 + r) x0 (List.range 8) acc)

/-- The sprite of R121 drawn by XOR on the framebuffer of `s`, and whether a pixel collided. -/
def State.drawSprite (s : State) (x y : Reg) (n : Nibble) : Framebuffer × Bool :=
  drawRows s.M s.I.toNat (s.originY y) (s.originX x) (List.range n.toNat) (s.FB, false)

/-- The lowest address above 0xFFF that Dxyn would read, if any (R122, R123). -/
def State.drawBad (s : State) (y : Reg) (n : Nibble) : Option Nat :=
  firstBad s.I.toNat (spriteBytesRead (s.originY y) n.toNat)

/-- Dxyn `DRW Vx, Vy, n` (R121): the range check comes before any write (R123); VF is 0, then 1 on a collision. -/
def execDrw (x y : Reg) (n : Nibble) (s : State) : Host.Outcome State Fault Refusal :=
  match s.drawBad y n with
  | some a => .next (s.raise .memRangeData (encode (.drw x y n)) (some a))
  | none =>
    let drawn := s.drawSprite x y n
    .next ((s.setFB drawn.1).setV vF (if drawn.2 then 1 else 0))

end Sys2Proof.Machine
end

