-- ==== Sys2Proof/Machine/Flow.lean ====
section
/-! DEFINITION. Jumps, calls and returns (42_flow.md R140 to R144). -/

namespace Sys2Proof.Machine

/-- 00EE `RET` (R140): the pop of R27, or a report on an empty stack. -/
def execRet (s : State) : Host.Outcome State Fault Refusal :=
  match s.SP with
  | none => .next (s.raise .stackUnderflow (encode .ret) none)
  | some k => .next { s with pc := s.S[k.val], SP := spDown k }

/-- 1nnn `JP nnn` (R141). -/
def execJp (nnn : Addr12) (s : State) : Host.Outcome State Fault Refusal := .next (s.setPc (zextAddr nnn))

/-- 2nnn `CALL nnn` (R142): the push of the post-fetch pc, or a report on a full stack. -/
def execCall (nnn : Addr12) (s : State) : Host.Outcome State Fault Refusal :=
  if spFull s.SP then .next (s.raise .stackOverflow (encode (.call nnn)) none)
  else .next ((s.push s.pc).setPc (zextAddr nnn))

/-- Bnnn `JP V0, nnn` (R143): the sum is not masked. -/
def execJpV0 (nnn : Addr12) (s : State) : Host.Outcome State Fault Refusal :=
  .next (s.setPc (zextByte (s.getV 0) + zextAddr nnn))

end Sys2Proof.Machine
end

