-- ==== Sys2Proof/Machine/Index.lean ====
section
/-! DEFINITION. The index register and memory instructions (45_index_memory.md R220 to R225). -/

namespace Sys2Proof.Machine

/-- Annn `LD I, nnn` (R220). -/
def execLdI (nnn : Addr12) (s : State) : Host.Outcome State Fault Refusal := .next (s.setI (zextAddr nnn))

/-- Fx1E `ADD I, Vx` (R221): 16 bits, no mask, no flag. -/
def execAddI (x : Reg) (s : State) : Host.Outcome State Fault Refusal := .next (s.setI (s.I + zextByte (s.getV x)))

/-- Fx29 `LD F, Vx` (R222). -/
def execLdF (x : Reg) (s : State) : Host.Outcome State Fault Refusal := .next (s.setI (glyphAddr (s.getV x)))

/-- Store `bs` from I on, or the MemRangeData fault of the instruction `i` (R223, R224; 60_exceptions.md R310). -/
def State.storeAtI (s : State) (i : Instr) (bs : List Byte) : State :=
  match firstBad (s.effAddr 0) bs.length with
  | some a => s.raise .memRangeData (encode i) (some a)
  | none => s.setM (s.M.storeBytes (s.effAddr 0) bs)

/-- Fx33 `LD B, Vx` (R223). -/
def execLdB (x : Reg) (s : State) : Host.Outcome State Fault Refusal :=
  .next (s.storeAtI (.ldB x) (bcdDigits (s.getV x)))

/-- Fx55 `LD [I], Vx` (R224): I is not changed. -/
def execLdMemVx (x : Reg) (s : State) : Host.Outcome State Fault Refusal :=
  .next (s.storeAtI (.ldMemVx x) (s.regsUpTo x))

/-- Fx65 `LD Vx, [I]` (R225): I is not changed. -/
def execLdVxMem (x : Reg) (s : State) : Host.Outcome State Fault Refusal :=
  match firstBad (s.effAddr 0) (x.val + 1) with
  | some a => .next (s.raise .memRangeData (encode (.ldVxMem x)) (some a))
  | none => .next { s with V := setRegs s.V 0 (s.M.loadBytes (s.effAddr 0) (x.val + 1)) }

end Sys2Proof.Machine
end

