-- ==== Sys2Proof/Machine/Skip.lean ====
section
/-! DEFINITION. The conditional skips (43_skip.md R160 to R166). -/

namespace Sys2Proof.Machine

/-- 3xnn `SE Vx, nn` (R160). -/
def execSeNn (x : Reg) (nn : Byte) (s : State) : Host.Outcome State Fault Refusal := .next (s.skipIf (s.getV x == nn))

/-- 4xnn `SNE Vx, nn` (R161). -/
def execSneNn (x : Reg) (nn : Byte) (s : State) : Host.Outcome State Fault Refusal := .next (s.skipIf (s.getV x != nn))

/-- 5xyN `SE Vx, Vy` (R162); N is ignored (30_encoding.md R90). -/
def execSeVy (x y : Reg) (_n : Nibble) (s : State) : Host.Outcome State Fault Refusal :=
  .next (s.skipIf (s.getV x == s.getV y))

/-- 9xyN `SNE Vx, Vy` (R163); N is ignored (30_encoding.md R90). -/
def execSneVy (x y : Reg) (_n : Nibble) (s : State) : Host.Outcome State Fault Refusal :=
  .next (s.skipIf (s.getV x != s.getV y))

/-- A skip on the state of the key whose number is V[x], `i` being the instruction: the KeyRange fault above 15, else a
skip where the key's slot in the snapshot is `pressed` (R164, R165). -/
def State.skipOnKey (s : State) (i : Instr) (x : Reg) (pressed : Bool) : State :=
  if h : (s.getV x).toNat < 16 then s.skipIf (s.K[(s.getV x).toNat]'h == pressed)
  else s.raise .keyRange (encode i) (some (s.getV x).toNat)

/-- Ex9E `SKP Vx` (R164). -/
def execSkp (x : Reg) (s : State) : Host.Outcome State Fault Refusal := .next (s.skipOnKey (.skp x) x true)

/-- ExA1 `SKNP Vx` (R165). -/
def execSknp (x : Reg) (s : State) : Host.Outcome State Fault Refusal := .next (s.skipOnKey (.sknp x) x false)

end Sys2Proof.Machine
end

