-- ==== Sys2Proof/Machine/TimerKey.lean ====
section
/-! DEFINITION. The timer and key-wait instructions (46_timer_key.md R250 to R254). -/

namespace Sys2Proof.Machine

/-- Fx07 `LD Vx, DT` (R250). -/
def execLdVxDt (x : Reg) (s : State) : Host.Outcome State Fault Refusal := .next (s.setV x s.DT)

/-- Fx15 `LD DT, Vx` (R251). -/
def execLdDtVx (x : Reg) (s : State) : Host.Outcome State Fault Refusal := .next (s.setDT (s.getV x))

/-- Fx18 `LD ST, Vx` (R252). -/
def execLdStVx (x : Reg) (s : State) : Host.Outcome State Fault Refusal := .next (s.setST (s.getV x))

/-- Fx0A `LD Vx, K` (R253): the lowest pressed key, or the rewind that executes the same instruction again (R254). -/
def execLdVxK (x : Reg) (s : State) : Host.Outcome State Fault Refusal :=
  .next (match firstKey s.K with
    | some k => s.setV x (BitVec.ofNat 8 k.val)
    | none => s.setPc (s.pc - 2))

end Sys2Proof.Machine
end

