-- ==== Sys2Proof/Machine/Cycle.lean ====
section
/-! DEFINITION. The cycle driver (40_cycle.md R100 to R108). -/

namespace Sys2Proof.Machine

/-- The dispatch of a fetched word (R104): the instruction it decodes to, or the unrecognized-opcode handler (R105). -/
def dispatch (w : Word) (s : State) : Host.Outcome State Fault Refusal :=
  match decode w with
  | .ok i => exec i s
  | .error _ => .next (s.unrecognized w)

/-- One cycle with its inputs (R100). A fetch fault is taken on the state as the cycle found it (R306, R309, R310); a
halted engine has no cycle step (R107). -/
def cycle (keys : Vector Bool 16) (rnd : Byte) (s : State) : Host.Outcome State Fault Refusal :=
  match s.halted with
  | some e => .fault (.halted e)
  | none =>
    match fetch fetchBelowRom s with
    | .error c => .next (s.raiseFetch c)
    | .ok w => dispatch w (s.afterFetch keys rnd)

end Sys2Proof.Machine
end

