-- ==== Sys2Proof/Machine/Step.lean ====
section
/-! DEFINITION. One step of the machine: what the host does before the next cycle, then that cycle. -/

namespace Sys2Proof.Machine

/-- One step: the host's ticks before the cycle and its input to it (60_exceptions.md R317, R325), then one cycle
(40_cycle.md R100). -/
def step (s : State) : Host.Outcome State Fault Refusal :=
  cycle s.nextInput.keys s.nextInput.rnd s.hostActs

/-- `s` with the instruction whose bits are `w` stored big-endian at `pc`, where the next step fetches (20_memory.md R60;
log 16). The bits above `nbits` are zero. -/
def State.withFetchWord (s : State) (nbits w : Nat) : State :=
  let word := BitVec.ofNat 16 (w % 2 ^ nbits)
  s.setM ((s.M.write s.pc.toNat (highByte word)).write (s.pc.toNat + 1) (lowByte word))

end Sys2Proof.Machine
end

