-- ==== Sys2Proof/Safety.lean ====
section
/-! DEFINITION. The terms claims are stated in: a running engine, the launch predicate, a parked state, the invariant, the
parts of the state and what an instruction may change of them. -/

namespace Sys2Proof.Machine

/-! ## Runs -/

/-- The engine runs: no fault has stopped it (10_state.md R34). -/
def Running (s : State) : Prop := s.halted = none

/-- pc is where a fetch succeeds: 0x200 to 0xFFE (20_memory.md R58, 40_cycle.md R101). -/
def Fetchable (s : State) : Prop := romBase ≤ s.pc.toNat ∧ s.pc.toNat + 1 < memSize

/-- The word at pc, big-endian (20_memory.md R60). -/
def State.wordAtPc (s : State) : Word := wordOfBytes (s.M.read s.pc.toNat) (s.M.read (s.pc.toNat + 1))

/-- `Launch(rom, s)` of 70_reset_and_hazards.md R346: V, I, S, FB, K and the rest of M are arbitrary. -/
def Launch (rom : List Byte) (s : State) : Prop :=
  rom.length ≤ romMax ∧ s.pc = 0x200 ∧ spToInt s.SP = -1 ∧ s.DT = 0 ∧ s.ST = 0 ∧
  (∀ a, a < 80 → s.M.read a = font.getD a 0) ∧
  (∀ i, i < rom.length → s.M.read (romBase + i) = rom.getD i 0) ∧
  s.log = [] ∧ s.halted = none

/-- A parked state (70_reset_and_hazards.md R352): the word at pc is a jump to itself. -/
def Parked (s : State) : Prop :=
  Running s ∧ Fetchable s ∧ ∃ nnn : Addr12, s.wordAtPc = encode (.jp nnn) ∧ zextAddr nnn = s.pc

/-- The log of an engine: only reports, but for the fault that halted it, which is the last entry (60_exceptions.md R301,
R315; 40_cycle.md R107). -/
def EventsOrdered (s : State) : Prop :=
  match s.halted with
  | none => ∀ e ∈ s.log, e.code.isFault = false
  | some e => e.code.isFault = true ∧ ∃ before, s.log = before ++ [e] ∧ ∀ d ∈ before, d.code.isFault = false

/-- The model's invariant: memory in its canonical form, events in their order. -/
def Inv (s : State) : Prop := s.M.wf ∧ EventsOrdered s

/-! ## Parts of the state -/

/-- The pieces of state of 10_state.md R20; `hostInputs` is the model's own fields. -/
inductive Part where
  | reg (r : Reg)
  | index
  | pc
  | entries
  | sp
  | delay
  | sound
  | keys
  | screen
  | memory
  | events
  | hostInputs
deriving DecidableEq, Repr

/-- Every part that is not listed is in `t` what it is in `s`; memory byte by byte. -/
def ChangesOnly (ps : List Part) (s t : State) : Prop :=
  (∀ r, .reg r ∉ ps → t.getV r = s.getV r) ∧
  (.index ∉ ps → t.I = s.I) ∧
  (.pc ∉ ps → t.pc = s.pc) ∧
  (.entries ∉ ps → t.S = s.S) ∧
  (.sp ∉ ps → t.SP = s.SP) ∧
  (.delay ∉ ps → t.DT = s.DT) ∧
  (.sound ∉ ps → t.ST = s.ST) ∧
  (.keys ∉ ps → t.K = s.K) ∧
  (.screen ∉ ps → t.FB = s.FB) ∧
  (.memory ∉ ps → ∀ a, t.M.read a = s.M.read a) ∧
  (.events ∉ ps → t.log = s.log ∧ t.halted = s.halted) ∧
  (.hostInputs ∉ ps → t.rnd = s.rnd ∧ t.inputs = s.inputs ∧ t.cycleNo = s.cycleNo)

/-- `t` is `s` with the fault `e` taken, and nothing else (60_exceptions.md R301, R310). -/
def HaltsWith (e : Event) (s t : State) : Prop :=
  t.log = s.log ++ [e] ∧ t.halted = some e ∧ ChangesOnly [.events] s t

/-- `t` is `s` with the report `e` taken, and nothing else (60_exceptions.md R301, R310). -/
def ReportsOnly (e : Event) (s t : State) : Prop :=
  t.log = s.log ++ [e] ∧ t.halted = s.halted ∧ ChangesOnly [.events] s t

/-- V0 to V[x] as parts. -/
def regParts (x : Reg) : List Part := (keyOrder.filter (· ≤ x)).map Part.reg

/-- The "written by" column of 10_state.md R36, turned round, and the events of 60_exceptions.md R302. -/
def writes : Instr → List Part
  | .cls => [.screen]
  | .ret => [.pc, .sp, .events]
  | .jp _ => [.pc]
  | .call _ => [.pc, .sp, .entries, .events]
  | .seNn _ _ => [.pc]
  | .sneNn _ _ => [.pc]
  | .seVy _ _ _ => [.pc]
  | .ldNn x _ => [.reg x]
  | .addNn x _ => [.reg x]
  | .ldVy x _ => [.reg x]
  | .orVy x _ => [.reg x]
  | .andVy x _ => [.reg x]
  | .xorVy x _ => [.reg x]
  | .addVy x _ => [.reg x, .reg vF]
  | .subVy x _ => [.reg x, .reg vF]
  | .subnVy x _ => [.reg x, .reg vF]
  | .shr x _ => [.reg x, .reg vF]
  | .shl x _ => [.reg x, .reg vF]
  | .sneVy _ _ _ => [.pc]
  | .ldI _ => [.index]
  | .jpV0 _ => [.pc]
  | .rnd x _ => [.reg x]
  | .drw _ _ _ => [.reg vF, .screen, .events]
  | .skp _ => [.pc, .events]
  | .sknp _ => [.pc, .events]
  | .ldVxDt x => [.reg x]
  | .ldDtVx _ => [.delay]
  | .ldStVx _ => [.sound]
  | .addI _ => [.index]
  | .ldVxK x => [.reg x, .pc]
  | .ldF _ => [.index]
  | .ldB _ => [.memory, .events]
  | .ldMemVx _ => [.memory, .events]
  | .ldVxMem x => .events :: regParts x

/-- The one event an instruction can raise (60_exceptions.md R302). -/
def mayRaise : Instr → Option EventCode
  | .ret => some .stackUnderflow
  | .call _ => some .stackOverflow
  | .drw _ _ _ => some .memRangeData
  | .ldB _ => some .memRangeData
  | .ldMemVx _ => some .memRangeData
  | .ldVxMem _ => some .memRangeData
  | .skp _ => some .keyRange
  | .sknp _ => some .keyRange
  | _ => none

/-- The conditional skips (43_skip.md R160 to R165). -/
def isSkip : Instr → Bool
  | .seNn _ _ => true
  | .sneNn _ _ => true
  | .seVy _ _ _ => true
  | .sneVy _ _ _ => true
  | .skp _ => true
  | .sknp _ => true
  | _ => false

/-- The instructions that read the keypad snapshot (10_state.md R36). -/
def readsKeys : Instr → Bool
  | .skp _ => true
  | .sknp _ => true
  | .ldVxK _ => true
  | _ => false

/-- The instruction that reads the cycle's random byte (44_alu.md R193). -/
def readsRnd : Instr → Bool
  | .rnd _ _ => true
  | _ => false

/-- The instruction that writes the sound timer (10_state.md R29). -/
def writesSound : Instr → Bool
  | .ldStVx _ => true
  | _ => false

/-- An outcome with `f` applied to its next state. -/
def mapNext (f : State → State) : Host.Outcome State Fault Refusal → Host.Outcome State Fault Refusal
  | .next t => .next (f t)
  | .fault e => .fault e
  | .refused r => .refused r

/-- The sprite of an `n`-row draw with its origin at column `x0`, row `y0` has a set bit on the pixel at `row`, `col`
(41_display.md R121, R124); drawing never wraps. -/
def State.spriteBit (s : State) (x0 y0 n row col : Nat) : Bool :=
  decide (y0 ≤ row ∧ row < y0 + n ∧ x0 ≤ col ∧ col < x0 + 8) &&
    (s.M.read (s.I.toNat + (row - y0))).getLsbD (7 - (col - x0))

end Sys2Proof.Machine
end

