-- ==== Sys2Proof/Certificates/Slice0/Obligations.lean ====
section
/-! DEFINITION. The statements for the provers. Every instruction's statement has as its conclusion that `exec` answers a
next state, with what the rule gives and the frame (`ChangesOnly`); every handler runs with the post-fetch pc (40_cycle.md
R102), so "pc unchanged by the handler" is the pc the rules call pc_instr + 2. -/

open Sys2Proof Sys2Proof.Machine

/-! ## Encoding -/

/-- 30_encoding.md R81 to R89: the decoder reads back every operand, at every value, of every encoded instruction. That
the nibble an instruction ignores is an operand too is the model's choice (log 18). -/
def Obligations.DecodeOfEncodeIsTheInstruction : Prop := ∀ i : Instr, decode (encode i) = .ok i

/-- 30_encoding.md R81, R82 with the MODEL'S CHOICE of log 18: no bit of a word is dropped by the decoder, and no two words
decode to one term, because `Instr` keeps the ignored N of 5xyN and 9xyN and the unread y of 8xy6 and 8xyE. The spec does
not say it: it runs every 5xyN as 5xy0 and every 9xyN as 9xy0 (R90). -/
def Obligations.EncodeOfDecodeIsTheWord : Prop := ∀ (w : Word) (i : Instr), decode w = .ok i → encode i = w

/-- 30_encoding.md R84 to R92: the decoder accepts exactly the words of the opcode map, and rejects exactly the words R92
lists. -/
def Obligations.DecodeAcceptsExactlyTheOpcodeMap : Prop :=
  ∀ w : Word,
    ((∃ i, decode w = .ok i) ↔ recognizedWord w = true) ∧
    ((∃ r, decode w = .error r) ↔ unrecognizedWord w = true)

/-- 30_encoding.md R91: 34 patterns, disjoint, which cover every word that R92 does not list. -/
def Obligations.OpcodePatternsAreDisjointAndCover : Prop :=
  opcodeTable.length = 34 ∧
  ∀ w : Word, (opcodeTable.filter (·.accepts w)).length = if unrecognizedWord w then 0 else 1

/-- 30_encoding.md R82, R95: some words written out bit by bit, at least one of each file of instructions. -/
def Obligations.SampleWordsDecode : Prop :=
  decode 0b0000000011100000#16 = .ok .cls ∧
  decode 0b0000000011101110#16 = .ok .ret ∧
  decode 0b0001001000110100#16 = .ok (.jp 0x234) ∧
  decode 0b0101000100100111#16 = .ok (.seVy 1 2 7) ∧
  decode 0b0110101000101111#16 = .ok (.ldNn 0xA 0x2F) ∧
  decode 0b1000111100010110#16 = .ok (.shr 0xF 1) ∧
  decode 0b1101000100100101#16 = .ok (.drw 1 2 5) ∧
  decode 0b1110001110011110#16 = .ok (.skp 3) ∧
  decode 0b1111001000110011#16 = .ok (.ldB 2) ∧
  decode 0b1111010100001010#16 = .ok (.ldVxK 5) ∧
  decode 0b1000000000001000#16 = .error .family8

/-! ## The cycle driver -/

/-- 40_cycle.md R100, R102, R103, R104: where a fetch succeeds on a running engine and the word at pc decodes to `i`, the
step is `exec i` on the state the host left (its ticks made, its input taken) with pc + 2, the keypad snapshot and the
random byte of this cycle. -/
def Obligations.StepRunsTheDecodedInstruction : Prop :=
  ∀ (s : State) (i : Instr), Running s → Fetchable s → decode s.wordAtPc = .ok i →
    step s = exec i
      { s with
        DT := tickDownBy s.nextInput.ticks s.DT, ST := tickDownBy s.nextInput.ticks s.ST
        inputs := s.inputs.tail, cycleNo := s.cycleNo + 1
        pc := s.pc + 2, K := s.nextInput.keys, rnd := s.nextInput.rnd }

/-- 40_cycle.md R105, 60_exceptions.md R305: an unrecognized word is reported and the engine goes on at pc + 2; K has been
refreshed, nothing else changes. -/
def Obligations.UnrecognizedWordIsReportedAndSkipped : Prop :=
  ∀ s : State, Running s → Fetchable s → unrecognizedWord s.wordAtPc = true →
    ∃ t, step s = .next t ∧ t.pc = s.pc + 2 ∧ t.K = s.nextInput.keys ∧ t.halted = none ∧
      t.log = s.log ++ [{ code := .unrecognizedOpcode, pc := s.pc, instr := some s.wordAtPc, info := none }] ∧
      ChangesOnly [.pc, .keys, .events, .hostInputs] s.hostActs t

/-- 60_exceptions.md R309: a fetch below 0x200 halts the engine; pc is not advanced and K is not written. -/
def Obligations.FetchBelowRomHalts : Prop :=
  ∀ s : State, Running s → s.pc.toNat < 0x200 →
    ∃ t, step s = .next t ∧
      HaltsWith { code := .fetchReserved, pc := s.pc, instr := none, info := none } s.hostActs t

/-- 60_exceptions.md R306, 40_cycle.md R101: a fetch with pc + 1 above 0xFFF halts the engine; pc is not advanced and K is
not written. -/
def Obligations.FetchBeyondMemoryHalts : Prop :=
  ∀ s : State, Running s → 0xFFF < s.pc.toNat + 1 →
    ∃ t, step s = .next t ∧
      HaltsWith { code := .memRangeFetch, pc := s.pc, instr := none, info := none } s.hostActs t

/-- 20_memory.md R58: with FETCH_BELOW_ROM = fault a fetch below 0x200 raises FetchReserved, with execute it proceeds as
anywhere else, and at no other address do the two differ. -/
def Obligations.FetchBelowRomFollowsItsParameter : Prop :=
  fetchBelowRom = .fault ∧
  ∀ s : State,
    (s.pc.toNat < 0x200 → fetch .fault s = .error .fetchReserved) ∧
    (s.pc.toNat + 1 ≤ 0xFFF → fetch .execute s = .ok s.wordAtPc) ∧
    (0x200 ≤ s.pc.toNat → fetch .fault s = fetch .execute s)

/-- 40_cycle.md R107, 60_exceptions.md R316: a halted engine has no cycle step whatever its inputs, and a tick still counts
its timers down, to 0 and no further, and changes nothing else. -/
def Obligations.HaltedEngineHasNoStep : Prop :=
  ∀ (s : State) (e : Event), s.halted = some e →
    (∀ keys rnd, cycle keys rnd s = .fault (.halted e)) ∧
    step s = .fault (.halted e) ∧
    s.tick.DT.toNat = s.DT.toNat - 1 ∧ s.tick.ST.toNat = s.ST.toNat - 1 ∧
    ChangesOnly [.delay, .sound] s s.tick

/-- 60_exceptions.md R300, R301: every instruction on every state, and every step of a running engine, has a next state;
nothing is refused. -/
def Obligations.RunningEngineAlwaysSteps : Prop :=
  (∀ (i : Instr) (s : State), ∃ t, exec i s = .next t) ∧ ∀ s : State, Running s → ∃ t, step s = .next t

/-! ## Reset, launch and the host -/

/-- 10_state.md R40, R41, R42, R43, R49: what construction leaves, where the spec gives it. -/
def Obligations.ResetLeavesTheSpecsValues : Prop :=
  State.reset.pc = 0x200 ∧ spToInt State.reset.SP = -1 ∧ State.reset.DT = 0 ∧ State.reset.ST = 0 ∧
  (∀ a, a < 80 → State.reset.M.read a = font.getD a 0) ∧
  State.reset.log = [] ∧ State.reset.halted = none

/-- 70_reset_and_hazards.md R342, R343: the ROM load copies the image to 0x200 on and touches nothing else; it fails on an
image above 3584 bytes. -/
def Obligations.RomLoadCopiesTheImage : Prop :=
  ∀ (s : State) (rom : List Byte), s.M.wf →
    (rom.length ≤ 3584 →
      ∃ t, s.loadRom rom = some t ∧
        (∀ i, i < rom.length → t.M.read (0x200 + i) = rom.getD i 0) ∧
        (∀ a, a < 0x200 ∨ 0x200 + rom.length ≤ a → t.M.read a = s.M.read a) ∧
        ChangesOnly [.memory] s t) ∧
    (3584 < rom.length → s.loadRom rom = none)

/-- 70_reset_and_hazards.md R346 with R340, R342: the state after construction and the load of an image meets the launch
predicate of that image. -/
def Obligations.LoadedResetStateIsALaunchState : Prop :=
  ∀ rom : List Byte, rom.length ≤ 3584 → ∃ t, State.reset.loadRom rom = some t ∧ Launch rom t

/-- 60_exceptions.md R316: a tick takes 1 from each timer that is above 0, leaves one that is 0, and changes no other
state, on every state. -/
def Obligations.TickCountsTheTimersDown : Prop :=
  ∀ s : State,
    s.tick.DT.toNat = s.DT.toNat - 1 ∧ s.tick.ST.toNat = s.ST.toNat - 1 ∧ ChangesOnly [.delay, .sound] s s.tick

/-- 60_exceptions.md R316, R317: the ticks a step makes at once are that many single ticks. -/
def Obligations.TicksAtOnceAreSingleTicks : Prop := ∀ (n : Nat) (s : State), s.ticks n = State.tick^[n] s

/-! ## Invariants and whole-machine rules -/

/-- The reset state meets the model's invariant (derived from 20_memory.md R53, 60_exceptions.md R301). -/
def Obligations.ResetMeetsTheInvariant : Prop := Inv State.reset

/-- 20_memory.md R51, R53; 60_exceptions.md R301, R315: every step keeps memory in its canonical form inside the address
space, and keeps the log a list of reports that at most one fault ends, the one in `halted`. -/
def Obligations.StepKeepsTheInvariant : Prop := ∀ s t : State, Inv s → step s = .next t → Inv t

/-- The host's actions keep the invariant too (60_exceptions.md R325). -/
def Obligations.HostActionsKeepTheInvariant : Prop :=
  ∀ s : State, Inv s → Inv s.tick ∧ ∀ (rom : List Byte) (t : State), s.loadRom rom = some t → Inv t

/-- 10_state.md R36, the "written by" column: an instruction changes only the parts the table lists for it, and the log
where 60_exceptions.md R302 gives it an event. -/
def Obligations.InstructionsWriteOnlyTheirParts : Prop :=
  ∀ (i : Instr) (s t : State), exec i s = .next t → ChangesOnly (writes i) s t

/-- 60_exceptions.md R302, R311: an instruction raises no event, or the one R302 gives it, recorded with the address and
the word of the instruction. -/
def Obligations.InstructionsRaiseOnlyTheirEvent : Prop :=
  ∀ (i : Instr) (s t : State), exec i s = .next t →
    (t.log = s.log ∧ t.halted = s.halted) ∨
    ∃ (c : EventCode) (info : Option Nat), mayRaise i = some c ∧
      t.log = s.log ++ [{ code := c, pc := s.pc - 2, instr := some (encode i), info := info }] ∧
      t.halted = if c.isFault then some { code := c, pc := s.pc - 2, instr := some (encode i), info := info } else s.halted

/-- 60_exceptions.md R310: after an event of a handler the state is the handler's start state and the event; after a fetch
fault it is the state the cycle found and the event. -/
def Obligations.EventsHaveNoPartialEffect : Prop :=
  (∀ (i : Instr) (s t : State), exec i s = .next t → t.log ≠ s.log →
    ∃ e, t = { s with log := s.log ++ [e], halted := if e.code.isFault then some e else s.halted }) ∧
  (∀ s t : State, Running s → ¬ Fetchable s → step s = .next t →
    ∃ e, e.code.isFault = true ∧ t = { s.hostActs with log := s.log ++ [e], halted := some e })

/-- 60_exceptions.md R312, 10_state.md R33: a cycle appends at most one event to the log and takes none away. -/
def Obligations.StepAppendsAtMostOneEvent : Prop :=
  ∀ s t : State, step s = .next t → t.log = s.log ∨ ∃ e, t.log = s.log ++ [e]

/-- 70_reset_and_hazards.md R352: a cycle of a parked state leaves pc, V, I, S, SP, FB and M unchanged, refreshes K, adds
no log entry, and the state stays parked. -/
def Obligations.ParkedStateStaysParked : Prop :=
  ∀ s : State, Parked s →
    ∃ t, step s = .next t ∧ Parked t ∧ t.K = s.nextInput.keys ∧ ChangesOnly [.keys, .hostInputs] s.hostActs t

/-- 20_memory.md R68, 70_reset_and_hazards.md R349: a word that Fx55 has stored is what a fetch reads at its address. -/
def Obligations.StoredWordIsFetched : Prop :=
  ∀ (s : State) (x : Reg) (k : Nat), s.M.wf → s.I.toNat + x.val ≤ 0xFFF → (hk : k + 1 ≤ x.val) →
    ∃ t, exec (.ldMemVx x) s = .next t ∧
      ∀ p : Word, p.toNat = s.I.toNat + k → 0x200 ≤ p.toNat →
        fetch fetchBelowRom { t with pc := p } =
          .ok (wordOfBytes (s.getV ⟨k, by omega⟩) (s.getV ⟨k + 1, by omega⟩))

/-- 42_flow.md R140, R142 (the source's own example): a call, and then a return wherever it stands, come back to the pc
after the call, with the stack pointer as it was. -/
def Obligations.CallThenReturnComesBack : Prop :=
  ∀ (s : State) (nnn : Addr12) (p : Word), spToInt s.SP < 15 →
    ∃ t u, exec (.call nnn) s = .next t ∧ t.pc = zextAddr nnn ∧ exec .ret { t with pc := p } = .next u ∧
      u.pc = s.pc ∧ u.SP = s.SP

/-- 41_display.md R121: drawing the same sprite twice at the same place restores the framebuffer, and VF is 1 after the
second draw exactly when the first draw turned a pixel ON. VF is not a coordinate, for the first draw overwrites it. -/
def Obligations.DrawingTwiceRestoresTheScreen : Prop :=
  ∀ (s : State) (x y : Reg) (n : Nibble), x ≠ vF → y ≠ vF → s.drawBad y n = none →
    ∃ t u, exec (.drw x y n) s = .next t ∧ exec (.drw x y n) t = .next u ∧ u.FB = s.FB ∧
      (u.getV vF = 1 ∨ u.getV vF = 0) ∧
      (u.getV vF = 1 ↔ ∃ row col, row < 32 ∧ col < 64 ∧ s.FB.get row col = .off ∧ t.FB.get row col = .on)

/-- 45_index_memory.md R224, R225: Fx55 and then Fx65 with the same x and I give back V0 to V[x], whatever was in them in
between; the registers above x stay. -/
def Obligations.StoreThenLoadRestoresRegisters : Prop :=
  ∀ (s : State) (x : Reg) (W : Vector Byte 16), s.M.wf → s.I.toNat + x.val ≤ 0xFFF →
    ∃ t u, exec (.ldMemVx x) s = .next t ∧ exec (.ldVxMem x) { t with V := W } = .next u ∧
      ∀ r : Reg, u.getV r = if r ≤ x then s.getV r else W[r.val]

/-- 10_state.md R36, R30: only Ex9E, ExA1 and Fx0A read the keypad snapshot. -/
def Obligations.OnlyKeyInstructionsReadTheKeypad : Prop :=
  ∀ (i : Instr) (s : State) (keys : Vector Bool 16), readsKeys i = false →
    exec i { s with K := keys } = mapNext (fun t => { t with K := keys }) (exec i s)

/-- 10_state.md R29, R36: no instruction reads the sound timer. -/
def Obligations.NoInstructionReadsTheSoundTimer : Prop :=
  ∀ (i : Instr) (s : State) (b : Byte),
    exec i { s with ST := b } =
      mapNext (fun t => if writesSound i then t else { t with ST := b }) (exec i s)

/-- 44_alu.md R193, 60_exceptions.md R321: only Cxnn takes the random byte. -/
def Obligations.OnlyRndTakesTheRandomByte : Prop :=
  ∀ (i : Instr) (s : State) (b : Byte), readsRnd i = false →
    exec i { s with rnd := b } = mapNext (fun t => { t with rnd := b }) (exec i s)

/-! ## Display -/

/-- 41_display.md R120. -/
def Obligations.ClsTurnsEveryPixelOff : Prop :=
  encode .cls = 0x00E0 ∧
  ∀ s : State, ∃ t, exec .cls s = .next t ∧
    (∀ row col, row < 32 → col < 64 → t.FB.get row col = .off) ∧ ChangesOnly [.screen] s t

/-- 41_display.md R121, R124: where no byte to read lies above 0xFFF, the draw toggles exactly the pixels inside the screen
on which the sprite, placed at (V[x] mod 64, V[y] mod 32), has a set bit; VF is 1 if one of them was ON, else 0. Where a
byte to read lies above 0xFFF (which one is the next statement's), the draw only raises MemRangeData. -/
def Obligations.DrwTogglesTheSpritesPixels : Prop :=
  ∀ (s : State) (x y : Reg) (n : Nibble),
    (encode (.drw x y n)).toNat = 0xD000 + x.val * 0x100 + y.val * 0x10 + n.toNat ∧
    (s.drawBad y n = none →
      ∃ t, exec (.drw x y n) s = .next t ∧
        (∀ row col, row < 32 → col < 64 →
          t.FB.get row col =
            if s.spriteBit ((s.getV x).toNat % 64) ((s.getV y).toNat % 32) n.toNat row col then (s.FB.get row col).flip
            else s.FB.get row col) ∧
        (t.getV vF = 1 ∨ t.getV vF = 0) ∧
        (t.getV vF = 1 ↔ ∃ row col, row < 32 ∧ col < 64 ∧ s.FB.get row col = .on ∧
          s.spriteBit ((s.getV x).toNat % 64) ((s.getV y).toNat % 32) n.toNat row col = true) ∧
        ChangesOnly [.screen, .reg vF] s t) ∧
    (s.drawBad y n ≠ none →
      ∃ t e, exec (.drw x y n) s = .next t ∧ e.code = .memRangeData ∧ HaltsWith e s t)

/-- 41_display.md R122, R123: the bytes read are M[I] to M[I + k], k being n - 1 where no row is clipped and 32 - y0
otherwise; if one of them is above 0xFFF the draw only raises MemRangeData with the lowest such address. -/
def Obligations.DrwOutOfRangeFaultsWithoutEffect : Prop :=
  ∀ (s : State) (x y : Reg) (n : Nibble),
    let y0 := (s.getV y).toNat % 32
    let k := if y0 + n.toNat - 1 < 32 then n.toNat - 1 else 32 - y0
    (s.drawBad y n = none ↔ n = 0 ∨ s.I.toNat + k ≤ 0xFFF) ∧
    (n ≠ 0 → 0xFFF < s.I.toNat + k →
      ∃ t, exec (.drw x y n) s = .next t ∧
        HaltsWith { code := .memRangeData, pc := s.pc - 2,
                    instr := some (BitVec.ofNat 16 (0xD000 + x.val * 0x100 + y.val * 0x10 + n.toNat)),
                    info := some (max s.I.toNat 0x1000) } s t)

/-! ## Flow -/

/-- 42_flow.md R140, 60_exceptions.md R304: RET pops the top entry into pc and leaves it where it is; on an empty stack it
only reports StackUnderflow. -/
def Obligations.RetPopsOrReports : Prop :=
  encode .ret = 0x00EE ∧
  ∀ s : State,
    (∀ k : Fin 16, spToInt s.SP = k.val →
      ∃ t, exec .ret s = .next t ∧ t.pc = s.S[k.val] ∧ spToInt t.SP = (k.val : Int) - 1 ∧ ChangesOnly [.pc, .sp] s t) ∧
    (spToInt s.SP = -1 →
      ∃ t, exec .ret s = .next t ∧
        ReportsOnly { code := .stackUnderflow, pc := s.pc - 2, instr := some 0x00EE, info := none } s t)

/-- 42_flow.md R142, 60_exceptions.md R303: CALL pushes the post-fetch pc on entry SP + 1 and jumps; with SP = 15 it only
reports StackOverflow. -/
def Obligations.CallPushesOrReports : Prop :=
  ∀ (s : State) (nnn : Addr12),
    (encode (.call nnn)).toNat = 0x2000 + nnn.toNat ∧
    (spToInt s.SP < 15 →
      ∃ t, exec (.call nnn) s = .next t ∧ t.pc.toNat = nnn.toNat ∧ spToInt t.SP = spToInt s.SP + 1 ∧
        (∀ j : Fin 16, t.S[j.val] = if spToInt s.SP + 1 = j.val then s.pc else s.S[j.val]) ∧
        ChangesOnly [.pc, .sp, .entries] s t) ∧
    (spToInt s.SP = 15 →
      ∃ t, exec (.call nnn) s = .next t ∧
        ReportsOnly { code := .stackOverflow, pc := s.pc - 2, instr := some (BitVec.ofNat 16 (0x2000 + nnn.toNat)),
                      info := none } s t)

/-- 42_flow.md R141, R143: the two jumps; the sum of Bnnn is not masked. A target below 0x200 or above 0xFFE faults at the
next fetch, not here. -/
def Obligations.JumpsWriteThePc : Prop :=
  ∀ (s : State) (nnn : Addr12),
    (encode (.jp nnn)).toNat = 0x1000 + nnn.toNat ∧ (encode (.jpV0 nnn)).toNat = 0xB000 + nnn.toNat ∧
    (∃ t, exec (.jp nnn) s = .next t ∧ t.pc.toNat = nnn.toNat ∧ ChangesOnly [.pc] s t ∧
      (nnn.toNat < 0x200 → fetch fetchBelowRom t = .error .fetchReserved) ∧
      (nnn.toNat = 0xFFF → fetch fetchBelowRom t = .error .memRangeFetch)) ∧
    (∃ t, exec (.jpV0 nnn) s = .next t ∧ t.pc.toNat = (s.getV 0).toNat + nnn.toNat ∧ ChangesOnly [.pc] s t ∧
      ((s.getV 0).toNat + nnn.toNat < 0x200 → fetch fetchBelowRom t = .error .fetchReserved) ∧
      (0xFFE < (s.getV 0).toNat + nnn.toNat → fetch fetchBelowRom t = .error .memRangeFetch))

/-! ## Skips -/

/-- 43_skip.md R166: a skip instruction writes no register, memory, timer, stack or framebuffer; pc stays or goes on by 2
(a KeyRange fault is logged). -/
def Obligations.SkipsMoveOnlyThePc : Prop :=
  ∀ (i : Instr) (s t : State), isSkip i = true → exec i s = .next t →
    (t.pc = s.pc ∨ t.pc = s.pc + 2) ∧ ChangesOnly [.pc, .events] s t

/-- 43_skip.md R160, R161, R166. -/
def Obligations.SkipsCompareWithTheImmediate : Prop :=
  ∀ (s : State) (x : Reg) (nn : Byte),
    (encode (.seNn x nn)).toNat = 0x3000 + x.val * 0x100 + nn.toNat ∧
    (encode (.sneNn x nn)).toNat = 0x4000 + x.val * 0x100 + nn.toNat ∧
    (∃ t, exec (.seNn x nn) s = .next t ∧ t.pc = (if s.getV x = nn then s.pc + 2 else s.pc) ∧ ChangesOnly [.pc] s t) ∧
    (∃ t, exec (.sneNn x nn) s = .next t ∧ t.pc = (if s.getV x = nn then s.pc else s.pc + 2) ∧ ChangesOnly [.pc] s t)

/-- 43_skip.md R162, R163, R166: whatever the ignored nibble N is (30_encoding.md R90). -/
def Obligations.SkipsCompareTwoRegisters : Prop :=
  ∀ (s : State) (x y : Reg) (n : Nibble),
    (encode (.seVy x y n)).toNat = 0x5000 + x.val * 0x100 + y.val * 0x10 + n.toNat ∧
    (encode (.sneVy x y n)).toNat = 0x9000 + x.val * 0x100 + y.val * 0x10 + n.toNat ∧
    (∃ t, exec (.seVy x y n) s = .next t ∧ t.pc = (if s.getV x = s.getV y then s.pc + 2 else s.pc) ∧
      ChangesOnly [.pc] s t) ∧
    (∃ t, exec (.sneVy x y n) s = .next t ∧ t.pc = (if s.getV x = s.getV y then s.pc else s.pc + 2) ∧
      ChangesOnly [.pc] s t)

/-- 43_skip.md R164, R165, R166, 60_exceptions.md R308: a skip on the slot K[V[x]] of the snapshot for a key number up to
15; above 15 the two instructions raise KeyRange and do nothing else. -/
def Obligations.SkipsTestTheKeySnapshot : Prop :=
  ∀ (s : State) (x : Reg),
    (encode (.skp x)).toNat = 0xE09E + x.val * 0x100 ∧ (encode (.sknp x)).toNat = 0xE0A1 + x.val * 0x100 ∧
    (∀ k : Fin 16, (s.getV x).toNat = k.val →
      (∃ t, exec (.skp x) s = .next t ∧ t.pc = (if s.K[k.val] = true then s.pc + 2 else s.pc) ∧ ChangesOnly [.pc] s t) ∧
      (∃ t, exec (.sknp x) s = .next t ∧ t.pc = (if s.K[k.val] = true then s.pc else s.pc + 2) ∧
        ChangesOnly [.pc] s t)) ∧
    (15 < (s.getV x).toNat →
      (∃ t, exec (.skp x) s = .next t ∧
        HaltsWith { code := .keyRange, pc := s.pc - 2, instr := some (BitVec.ofNat 16 (0xE09E + x.val * 0x100)),
                    info := some (s.getV x).toNat } s t) ∧
      (∃ t, exec (.sknp x) s = .next t ∧
        HaltsWith { code := .keyRange, pc := s.pc - 2, instr := some (BitVec.ofNat 16 (0xE0A1 + x.val * 0x100)),
                    info := some (s.getV x).toNat } s t))

/-! ## Loads and arithmetic -/

/-- 44_alu.md R182, R183 and 10_state.md R23: immediate load, and immediate addition without a flag. -/
def Obligations.ImmediateLoadAndAdd : Prop :=
  ∀ (s : State) (x : Reg) (nn : Byte),
    (encode (.ldNn x nn)).toNat = 0x6000 + x.val * 0x100 + nn.toNat ∧
    (encode (.addNn x nn)).toNat = 0x7000 + x.val * 0x100 + nn.toNat ∧
    (∃ t, exec (.ldNn x nn) s = .next t ∧ t.getV x = nn ∧ ChangesOnly [.reg x] s t) ∧
    (∃ t, exec (.addNn x nn) s = .next t ∧ (t.getV x).toNat = ((s.getV x).toNat + nn.toNat) % 256 ∧
      ChangesOnly [.reg x] s t)

/-- 44_alu.md R184 to R187: copy and the three bitwise operations, none of which has a flag. -/
def Obligations.RegisterCopyAndLogic : Prop :=
  ∀ (s : State) (x y : Reg),
    (encode (.ldVy x y)).toNat = 0x8000 + x.val * 0x100 + y.val * 0x10 ∧
    (encode (.orVy x y)).toNat = 0x8001 + x.val * 0x100 + y.val * 0x10 ∧
    (encode (.andVy x y)).toNat = 0x8002 + x.val * 0x100 + y.val * 0x10 ∧
    (encode (.xorVy x y)).toNat = 0x8003 + x.val * 0x100 + y.val * 0x10 ∧
    (∃ t, exec (.ldVy x y) s = .next t ∧ t.getV x = s.getV y ∧ ChangesOnly [.reg x] s t) ∧
    (∃ t, exec (.orVy x y) s = .next t ∧
      (∀ j, j < 8 → (t.getV x).getLsbD j = ((s.getV x).getLsbD j || (s.getV y).getLsbD j)) ∧
      ChangesOnly [.reg x] s t) ∧
    (∃ t, exec (.andVy x y) s = .next t ∧
      (∀ j, j < 8 → (t.getV x).getLsbD j = ((s.getV x).getLsbD j && (s.getV y).getLsbD j)) ∧
      ChangesOnly [.reg x] s t) ∧
    (∃ t, exec (.xorVy x y) s = .next t ∧
      (∀ j, j < 8 → (t.getV x).getLsbD j = ((s.getV x).getLsbD j != (s.getV y).getLsbD j)) ∧
      ChangesOnly [.reg x] s t)

/-- 44_alu.md R180, R181, R188: ADD Vx, Vy writes the sum mod 256, and VF the carry; with x = F it writes VF only, with one
of the candidates of R181: the flag (also the literal statement order) or the result. -/
def Obligations.AddWritesSumAndCarry : Prop :=
  ∀ (s : State) (x y : Reg),
    let a := (s.getV x).toNat
    let b := (s.getV y).toNat
    (encode (.addVy x y)).toNat = 0x8004 + x.val * 0x100 + y.val * 0x10 ∧
    ∃ t, exec (.addVy x y) s = .next t ∧
      (x ≠ vF → (t.getV x).toNat = (a + b) % 256 ∧ (t.getV vF).toNat = (if a + b > 255 then 1 else 0)) ∧
      (x = vF → (t.getV vF).toNat = (if a + b > 255 then 1 else 0) ∨ (t.getV vF).toNat = (a + b) % 256) ∧
      ChangesOnly [.reg x, .reg vF] s t

/-- 44_alu.md R180, R181, R189, R190: the two subtractions write the difference mod 256, and VF is 1 where there is no
borrow; with x = F they write VF only, with the flag (also the literal statement order) or the result. -/
def Obligations.SubtractionsWriteDifferenceAndNoBorrow : Prop :=
  ∀ (s : State) (x y : Reg),
    let a := (s.getV x).toNat
    let b := (s.getV y).toNat
    (encode (.subVy x y)).toNat = 0x8005 + x.val * 0x100 + y.val * 0x10 ∧
    (encode (.subnVy x y)).toNat = 0x8007 + x.val * 0x100 + y.val * 0x10 ∧
    (∃ t, exec (.subVy x y) s = .next t ∧
      (x ≠ vF → ((t.getV x).toNat : Int) = ((a : Int) - b) % 256 ∧ (t.getV vF).toNat = (if b ≤ a then 1 else 0)) ∧
      (x = vF → (t.getV vF).toNat = (if b ≤ a then 1 else 0) ∨ ((t.getV vF).toNat : Int) = ((a : Int) - b) % 256) ∧
      ChangesOnly [.reg x, .reg vF] s t) ∧
    (∃ t, exec (.subnVy x y) s = .next t ∧
      (x ≠ vF → ((t.getV x).toNat : Int) = ((b : Int) - a) % 256 ∧ (t.getV vF).toNat = (if a ≤ b then 1 else 0)) ∧
      (x = vF → (t.getV vF).toNat = (if a ≤ b then 1 else 0) ∨ ((t.getV vF).toNat : Int) = ((b : Int) - a) % 256) ∧
      ChangesOnly [.reg x, .reg vF] s t)

/-- 44_alu.md R180, R181, R191, R192: the two shifts of V[x] by one, VF the bit shifted out, whatever y is; with x = F they
write VF only, with the flag, the result, or the shift of the flag (the literal statement order). -/
def Obligations.ShiftsWriteResultAndBitShiftedOut : Prop :=
  ∀ (s : State) (x y : Reg),
    let a := (s.getV x).toNat
    (encode (.shr x y)).toNat = 0x8006 + x.val * 0x100 + y.val * 0x10 ∧
    (encode (.shl x y)).toNat = 0x800E + x.val * 0x100 + y.val * 0x10 ∧
    (∃ t, exec (.shr x y) s = .next t ∧
      (x ≠ vF → (t.getV x).toNat = a / 2 ∧ (t.getV vF).toNat = a % 2) ∧
      (x = vF → (t.getV vF).toNat = a % 2 ∨ (t.getV vF).toNat = a / 2 ∨ (t.getV vF).toNat = 0) ∧
      ChangesOnly [.reg x, .reg vF] s t) ∧
    (∃ t, exec (.shl x y) s = .next t ∧
      (x ≠ vF → (t.getV x).toNat = a * 2 % 256 ∧ (t.getV vF).toNat = a / 128) ∧
      (x = vF → (t.getV vF).toNat = a / 128 ∨ (t.getV vF).toNat = a * 2 % 256 ∨ (t.getV vF).toNat = a / 128 * 2) ∧
      ChangesOnly [.reg x, .reg vF] s t)

/-- 44_alu.md R193: V[x] is the random byte of the cycle, masked by nn. -/
def Obligations.RndMasksTheRandomByte : Prop :=
  ∀ (s : State) (x : Reg) (nn : Byte),
    (encode (.rnd x nn)).toNat = 0xC000 + x.val * 0x100 + nn.toNat ∧
    ∃ t, exec (.rnd x nn) s = .next t ∧
      (∀ j, j < 8 → (t.getV x).getLsbD j = (s.rnd.getLsbD j && nn.getLsbD j)) ∧ ChangesOnly [.reg x] s t

/-! ## Index register and memory -/

/-- 45_index_memory.md R220, R221, R222: the three writes of I, without a mask and without a flag. -/
def Obligations.IndexRegisterWrites : Prop :=
  ∀ (s : State) (x : Reg) (nnn : Addr12),
    (encode (.ldI nnn)).toNat = 0xA000 + nnn.toNat ∧ (encode (.addI x)).toNat = 0xF01E + x.val * 0x100 ∧
    (encode (.ldF x)).toNat = 0xF029 + x.val * 0x100 ∧
    (∃ t, exec (.ldI nnn) s = .next t ∧ t.I.toNat = nnn.toNat ∧ ChangesOnly [.index] s t) ∧
    (∃ t, exec (.addI x) s = .next t ∧ t.I.toNat = (s.I.toNat + (s.getV x).toNat) % 65536 ∧
      ChangesOnly [.index] s t) ∧
    (∃ t, exec (.ldF x) s = .next t ∧ t.I.toNat = (s.getV x).toNat * 5 ∧ ChangesOnly [.index] s t)

/-- 45_index_memory.md R223, 60_exceptions.md R307: the three decimal digits go to I, I + 1, I + 2, and no other byte
changes; where I + 2 is above 0xFFF the instruction only raises MemRangeData with the lowest address out of range. -/
def Obligations.BcdStoresTheThreeDigits : Prop :=
  ∀ (s : State) (x : Reg),
    (encode (.ldB x)).toNat = 0xF033 + x.val * 0x100 ∧
    (s.M.wf → s.I.toNat + 2 ≤ 0xFFF →
      ∃ t, exec (.ldB x) s = .next t ∧
        (t.M.read (s.effAddr 0)).toNat = (s.getV x).toNat / 100 ∧
        (t.M.read (s.effAddr 1)).toNat = (s.getV x).toNat / 10 % 10 ∧
        (t.M.read (s.effAddr 2)).toNat = (s.getV x).toNat % 10 ∧
        (∀ a, a < s.effAddr 0 ∨ s.effAddr 2 < a → t.M.read a = s.M.read a) ∧
        ChangesOnly [.memory] s t) ∧
    (0xFFF < s.I.toNat + 2 →
      ∃ t, exec (.ldB x) s = .next t ∧
        HaltsWith { code := .memRangeData, pc := s.pc - 2, instr := some (BitVec.ofNat 16 (0xF033 + x.val * 0x100)),
                    info := some (max s.I.toNat 0x1000) } s t)

/-- 45_index_memory.md R224, 60_exceptions.md R307: V0 to V[x] go to I to I + x, and no other byte changes; where I + x is
above 0xFFF the instruction only raises MemRangeData with the lowest address out of range. -/
def Obligations.RegistersAreStoredFromI : Prop :=
  ∀ (s : State) (x : Reg),
    (encode (.ldMemVx x)).toNat = 0xF055 + x.val * 0x100 ∧
    (s.M.wf → s.I.toNat + x.val ≤ 0xFFF →
      ∃ t, exec (.ldMemVx x) s = .next t ∧
        (∀ r : Reg, r ≤ x → t.M.read (s.effAddr r.val) = s.getV r) ∧
        (∀ a, a < s.effAddr 0 ∨ s.effAddr x.val < a → t.M.read a = s.M.read a) ∧
        ChangesOnly [.memory] s t) ∧
    (0xFFF < s.I.toNat + x.val →
      ∃ t, exec (.ldMemVx x) s = .next t ∧
        HaltsWith { code := .memRangeData, pc := s.pc - 2, instr := some (BitVec.ofNat 16 (0xF055 + x.val * 0x100)),
                    info := some (max s.I.toNat 0x1000) } s t)

/-- 45_index_memory.md R225, 60_exceptions.md R307: V0 to V[x] are loaded from I to I + x, the registers above x and I
stay; where I + x is above 0xFFF the instruction only raises MemRangeData with the lowest address out of range. -/
def Obligations.RegistersAreLoadedFromI : Prop :=
  ∀ (s : State) (x : Reg),
    (encode (.ldVxMem x)).toNat = 0xF065 + x.val * 0x100 ∧
    (s.I.toNat + x.val ≤ 0xFFF →
      ∃ t, exec (.ldVxMem x) s = .next t ∧
        (∀ r : Reg, t.getV r = if r ≤ x then s.M.read (s.effAddr r.val) else s.getV r) ∧
        ChangesOnly (regParts x) s t) ∧
    (0xFFF < s.I.toNat + x.val →
      ∃ t, exec (.ldVxMem x) s = .next t ∧
        HaltsWith { code := .memRangeData, pc := s.pc - 2, instr := some (BitVec.ofNat 16 (0xF065 + x.val * 0x100)),
                    info := some (max s.I.toNat 0x1000) } s t)

/-! ## Timers and the key wait -/

/-- 46_timer_key.md R250, R251, R252. -/
def Obligations.TimerTransfers : Prop :=
  ∀ (s : State) (x : Reg),
    (encode (.ldVxDt x)).toNat = 0xF007 + x.val * 0x100 ∧
    (encode (.ldDtVx x)).toNat = 0xF015 + x.val * 0x100 ∧
    (encode (.ldStVx x)).toNat = 0xF018 + x.val * 0x100 ∧
    (∃ t, exec (.ldVxDt x) s = .next t ∧ t.getV x = s.DT ∧ ChangesOnly [.reg x] s t) ∧
    (∃ t, exec (.ldDtVx x) s = .next t ∧ t.DT = s.getV x ∧ ChangesOnly [.delay] s t) ∧
    (∃ t, exec (.ldStVx x) s = .next t ∧ t.ST = s.getV x ∧ ChangesOnly [.sound] s t)

/-- 46_timer_key.md R253: with a key pressed, V[x] is the lowest pressed key's number and pc goes on; with none, pc goes
back to the instruction and V[x] stays. -/
def Obligations.KeyWaitLoadsTheLowestKeyOrRewinds : Prop :=
  ∀ (s : State) (x : Reg),
    (encode (.ldVxK x)).toNat = 0xF00A + x.val * 0x100 ∧
    (∀ k : Fin 16, s.K[k.val] = true → (∀ j : Fin 16, j < k → s.K[j.val] = false) →
      ∃ t, exec (.ldVxK x) s = .next t ∧ (t.getV x).toNat = k.val ∧ ChangesOnly [.reg x] s t) ∧
    ((∀ j : Fin 16, s.K[j.val] = false) →
      ∃ t, exec (.ldVxK x) s = .next t ∧ t.pc = s.pc - 2 ∧ ChangesOnly [.pc] s t)
end

