-- ==== Sys2Proof/Laws/Decode.lean ====
section
/-! SUPPORT. The formats and the fields of an instruction word (30_encoding.md R81, R82). -/

namespace Sys2Proof

@[simp] theorem Reg.toNat_bits (x : Reg) : (Reg.bits x).toNat = x.val := rfl

theorem toNat_formatNNN (f : Nibble) (nnn : Addr12) : (formatNNN f nnn).toNat = f.toNat * 0x1000 + nnn.toNat := by
  have h : (formatNNN f nnn).toNat = f.toNat <<< 12 ||| nnn.toNat := BitVec.toNat_append f nnn
  rw [h, ← Nat.shiftLeft_add_eq_or_of_lt nnn.isLt, Nat.shiftLeft_eq]

theorem toNat_formatXNN (f : Nibble) (x : Reg) (nn : Byte) :
    (formatXNN f x nn).toNat = f.toNat * 0x1000 + x.val * 0x100 + nn.toNat := by
  have h := toNat_formatNNN f (Reg.bits x ++ nn : BitVec 12)
  rw [BitVec.toNat_append, ← Nat.shiftLeft_add_eq_or_of_lt nn.isLt, Nat.shiftLeft_eq] at h
  exact h.trans (by simp; omega)

theorem toNat_formatXYN (f : Nibble) (x y : Reg) (n : Nibble) :
    (formatXYN f x y n).toNat = f.toNat * 0x1000 + x.val * 0x100 + y.val * 0x10 + n.toNat := by
  have h := toNat_formatXNN f x (Reg.bits y ++ n : BitVec 8)
  rw [BitVec.toNat_append, ← Nat.shiftLeft_add_eq_or_of_lt n.isLt, Nat.shiftLeft_eq] at h
  exact h.trans (by simp; omega)

theorem toNat_formatX (f : Nibble) (x : Reg) (sub : Byte) :
    (formatX f x sub).toNat = f.toNat * 0x1000 + x.val * 0x100 + sub.toNat := toNat_formatXNN f x sub

theorem toNat_fieldF (w : Word) : (fieldF w).toNat = w.toNat / 0x1000 := by
  have := w.isLt
  simp [fieldF, Nat.shiftRight_eq_div_pow]; omega

theorem toNat_fieldN (w : Word) : (fieldN w).toNat = w.toNat % 0x10 := by simp [fieldN]

theorem toNat_fieldNN (w : Word) : (fieldNN w).toNat = w.toNat % 0x100 := by simp [fieldNN]

theorem toNat_fieldNNN (w : Word) : (fieldNNN w).toNat = w.toNat % 0x1000 := by simp [fieldNNN]

theorem val_fieldX (w : Word) : (fieldX w).val = w.toNat / 0x100 % 0x10 := by
  simp [fieldX, Nat.shiftRight_eq_div_pow]

theorem val_fieldY (w : Word) : (fieldY w).val = w.toNat / 0x10 % 0x10 := by
  simp [fieldY, Nat.shiftRight_eq_div_pow]

/-- A word is put together again from its fields, in each of the three splittings (R81). -/
theorem eq_formatNNN (w : Word) : w = formatNNN (fieldF w) (fieldNNN w) := by
  apply BitVec.eq_of_toNat_eq
  rw [toNat_formatNNN, toNat_fieldF, toNat_fieldNNN]; omega

theorem eq_formatXNN (w : Word) : w = formatXNN (fieldF w) (fieldX w) (fieldNN w) := by
  apply BitVec.eq_of_toNat_eq
  rw [toNat_formatXNN, toNat_fieldF, val_fieldX, toNat_fieldNN]; omega

theorem eq_formatXYN (w : Word) : w = formatXYN (fieldF w) (fieldX w) (fieldY w) (fieldN w) := by
  apply BitVec.eq_of_toNat_eq
  rw [toNat_formatXYN, toNat_fieldF, val_fieldX, val_fieldY, toNat_fieldN]; omega

/-! ## The fields of an encoded word (R82) -/

theorem fieldF_eq {w : Word} {f : Nibble} (h : w.toNat / 0x1000 = f.toNat) : fieldF w = f :=
  BitVec.eq_of_toNat_eq ((toNat_fieldF w).trans h)

theorem fieldF_formatNNN (f : Nibble) (nnn : Addr12) : fieldF (formatNNN f nnn) = f := by
  have := nnn.isLt
  exact fieldF_eq (by rw [toNat_formatNNN]; omega)

theorem fieldNNN_formatNNN (f : Nibble) (nnn : Addr12) : fieldNNN (formatNNN f nnn) = nnn := by
  have := nnn.isLt
  exact BitVec.eq_of_toNat_eq (by rw [toNat_fieldNNN, toNat_formatNNN]; omega)

theorem fieldF_formatXNN (f : Nibble) (x : Reg) (nn : Byte) : fieldF (formatXNN f x nn) = f := by
  have := nn.isLt
  exact fieldF_eq (by rw [toNat_formatXNN]; omega)

theorem fieldX_formatXNN (f : Nibble) (x : Reg) (nn : Byte) : fieldX (formatXNN f x nn) = x := by
  have := nn.isLt
  exact Fin.ext (by rw [val_fieldX, toNat_formatXNN]; omega)

theorem fieldNN_formatXNN (f : Nibble) (x : Reg) (nn : Byte) : fieldNN (formatXNN f x nn) = nn := by
  have := nn.isLt
  exact BitVec.eq_of_toNat_eq (by rw [toNat_fieldNN, toNat_formatXNN]; omega)

theorem fieldF_formatXYN (f : Nibble) (x y : Reg) (n : Nibble) : fieldF (formatXYN f x y n) = f := by
  have := n.isLt
  exact fieldF_eq (by rw [toNat_formatXYN]; omega)

theorem fieldX_formatXYN (f : Nibble) (x y : Reg) (n : Nibble) : fieldX (formatXYN f x y n) = x := by
  have := n.isLt
  exact Fin.ext (by rw [val_fieldX, toNat_formatXYN]; omega)

theorem fieldY_formatXYN (f : Nibble) (x y : Reg) (n : Nibble) : fieldY (formatXYN f x y n) = y := by
  have := n.isLt
  exact Fin.ext (by rw [val_fieldY, toNat_formatXYN]; omega)

theorem fieldN_formatXYN (f : Nibble) (x y : Reg) (n : Nibble) : fieldN (formatXYN f x y n) = n := by
  have := n.isLt
  exact BitVec.eq_of_toNat_eq (by rw [toNat_fieldN, toNat_formatXYN]; omega)

theorem toNat_wordOfBytes (hi lo : Byte) : (wordOfBytes hi lo).toNat = hi.toNat * 0x100 + lo.toNat := by
  have h : (wordOfBytes hi lo).toNat = hi.toNat <<< 8 ||| lo.toNat := BitVec.toNat_append hi lo
  rw [h, ← Nat.shiftLeft_add_eq_or_of_lt lo.isLt, Nat.shiftLeft_eq]

/-- A word is its two bytes, the high one first. -/
theorem wordOfBytes_split (w : Word) : wordOfBytes (highByte w) (lowByte w) = w := by
  apply BitVec.eq_of_toNat_eq
  have := w.isLt
  rw [toNat_wordOfBytes]
  simp [highByte, lowByte, Nat.shiftRight_eq_div_pow]; omega

/-- Decoding the two bytes of a word, in memory order, is decoding the word. -/
theorem decodeBytes_word (w : Word) (rest : List Byte) :
    decodeBytes (highByte w :: lowByte w :: rest) = (decode w).map (·, rest) := by
  rw [decodeBytes, wordOfBytes_split]

/-! ## The decoder, family by family (R85) -/

theorem nibble_cases : ∀ f : Nibble, f = 0x0 ∨ f = 0x1 ∨ f = 0x2 ∨ f = 0x3 ∨ f = 0x4 ∨ f = 0x5 ∨ f = 0x6 ∨ f = 0x7 ∨
    f = 0x8 ∨ f = 0x9 ∨ f = 0xA ∨ f = 0xB ∨ f = 0xC ∨ f = 0xD ∨ f = 0xE ∨ f = 0xF := by decide

theorem decode_family0 {w : Word} (h : fieldF w = 0x0#4) : decode w = decode0 w := by
  rw [decode, h]; rfl

theorem decode_family1 {w : Word} (h : fieldF w = 0x1#4) : decode w = .ok (.jp (fieldNNN w)) := by
  rw [decode, h]; rfl

theorem decode_family2 {w : Word} (h : fieldF w = 0x2#4) : decode w = .ok (.call (fieldNNN w)) := by
  rw [decode, h]; rfl

theorem decode_family3 {w : Word} (h : fieldF w = 0x3#4) : decode w = .ok (.seNn (fieldX w) (fieldNN w)) := by
  rw [decode, h]; rfl

theorem decode_family4 {w : Word} (h : fieldF w = 0x4#4) : decode w = .ok (.sneNn (fieldX w) (fieldNN w)) := by
  rw [decode, h]; rfl

theorem decode_family5 {w : Word} (h : fieldF w = 0x5#4) : decode w = .ok (.seVy (fieldX w) (fieldY w) (fieldN w)) := by
  rw [decode, h]; rfl

theorem decode_family6 {w : Word} (h : fieldF w = 0x6#4) : decode w = .ok (.ldNn (fieldX w) (fieldNN w)) := by
  rw [decode, h]; rfl

theorem decode_family7 {w : Word} (h : fieldF w = 0x7#4) : decode w = .ok (.addNn (fieldX w) (fieldNN w)) := by
  rw [decode, h]; rfl

theorem decode_family8 {w : Word} (h : fieldF w = 0x8#4) : decode w = decode8 w := by
  rw [decode, h]; rfl

theorem decode_family9 {w : Word} (h : fieldF w = 0x9#4) : decode w = .ok (.sneVy (fieldX w) (fieldY w) (fieldN w)) := by
  rw [decode, h]; rfl

theorem decode_familyA {w : Word} (h : fieldF w = 0xA#4) : decode w = .ok (.ldI (fieldNNN w)) := by
  rw [decode, h]; rfl

theorem decode_familyB {w : Word} (h : fieldF w = 0xB#4) : decode w = .ok (.jpV0 (fieldNNN w)) := by
  rw [decode, h]; rfl

theorem decode_familyC {w : Word} (h : fieldF w = 0xC#4) : decode w = .ok (.rnd (fieldX w) (fieldNN w)) := by
  rw [decode, h]; rfl

theorem decode_familyD {w : Word} (h : fieldF w = 0xD#4) : decode w = .ok (.drw (fieldX w) (fieldY w) (fieldN w)) := by
  rw [decode, h]; rfl

theorem decode_familyE {w : Word} (h : fieldF w = 0xE#4) : decode w = decodeE w := by
  rw [decode, h]; rfl

theorem decode_familyF {w : Word} (h : fieldF w = 0xF#4) : decode w = decodeF w := by
  rw [decode, h]; rfl

/-! ## The masks of the opcode map (R91) -/

theorem and_F000 (w : Word) : w &&& 0xF000#16 = (w >>> 12) <<< 12 := by
  ext i hi
  interval_cases i <;> simp

/-- A mask of the family and the `k` low bits keeps the family and the word modulo 2^k. -/
theorem toNat_and_mask (w low : Word) {k : Nat} (hk : k ≤ 12) (hl : low.toNat = 2 ^ k - 1) :
    (w &&& (0xF000#16 ||| low)).toNat = w.toNat / 0x1000 * 0x1000 + w.toNat % 2 ^ k := by
  have hw := w.isLt
  have hlt : w.toNat % 2 ^ k < 2 ^ 12 :=
    Nat.lt_of_lt_of_le (Nat.mod_lt _ (Nat.two_pow_pos k)) (Nat.pow_le_pow_right (by omega) hk)
  have hf : ((w >>> 12) <<< 12).toNat = (w.toNat / 0x1000) <<< 12 := by
    rw [BitVec.toNat_shiftLeft, BitVec.toNat_ushiftRight, Nat.shiftRight_eq_div_pow, Nat.shiftLeft_eq]
    omega
  rw [BitVec.and_or_distrib_left, and_F000, BitVec.toNat_or, hf, BitVec.toNat_and, hl, Nat.and_two_pow_sub_one_eq_mod,
    ← Nat.shiftLeft_add_eq_or_of_lt hlt, Nat.shiftLeft_eq]

theorem toNat_and_F000 (w : Word) : (w &&& 0xF000#16).toNat = w.toNat / 0x1000 * 0x1000 :=
  (toNat_and_mask w 0 (k := 0) (by omega) rfl).trans (by omega)

theorem toNat_and_F00F (w : Word) : (w &&& 0xF00F#16).toNat = w.toNat / 0x1000 * 0x1000 + w.toNat % 0x10 :=
  toNat_and_mask w 0xF (k := 4) (by omega) rfl

theorem toNat_and_F0FF (w : Word) : (w &&& 0xF0FF#16).toNat = w.toNat / 0x1000 * 0x1000 + w.toNat % 0x100 :=
  toNat_and_mask w 0xFF (k := 8) (by omega) rfl

theorem and_FFFF (w : Word) : w &&& 0xFFFF#16 = w := BitVec.and_allOnes

/-- A row accepts a word whose masked value is its pattern; then the same for each mask of the map. -/
theorem accepts_iff (r : OpcodeRow) (w : Word) : r.accepts w = true ↔ (w &&& r.mask).toNat = r.pattern.toNat := by
  rw [OpcodeRow.accepts, beq_iff_eq, ← BitVec.toNat_inj]

theorem accepts_F000 (m : String) (p w : Word) :
    (OpcodeRow.mk m 0xF000 p).accepts w = true ↔ w.toNat / 0x1000 * 0x1000 = p.toNat :=
  (accepts_iff _ _).trans (by rw [← toNat_and_F000]; rfl)

theorem accepts_F00F (m : String) (p w : Word) :
    (OpcodeRow.mk m 0xF00F p).accepts w = true ↔ w.toNat / 0x1000 * 0x1000 + w.toNat % 0x10 = p.toNat :=
  (accepts_iff _ _).trans (by rw [← toNat_and_F00F]; rfl)

theorem accepts_F0FF (m : String) (p w : Word) :
    (OpcodeRow.mk m 0xF0FF p).accepts w = true ↔ w.toNat / 0x1000 * 0x1000 + w.toNat % 0x100 = p.toNat :=
  (accepts_iff _ _).trans (by rw [← toNat_and_F0FF]; rfl)

theorem accepts_FFFF (m : String) (p w : Word) : (OpcodeRow.mk m 0xFFFF p).accepts w = true ↔ w.toNat = p.toNat :=
  (accepts_iff _ _).trans 
    (by rw [show w &&& (OpcodeRow.mk m 0xFFFF p).mask = w from and_FFFF w])

end Sys2Proof
end

