-- ==== Sys2Proof/Laws/Memory.lean ====
section
/-! SUPPORT. The laws of memory: a read after a write, the canonical form, and sequences of bytes (20_memory.md R53, R70). -/

namespace Sys2Proof

@[simp] theorem memSize_eq : memSize = 4096 := rfl

@[simp] theorem romBase_eq : romBase = 512 := rfl

@[simp] theorem romMax_eq : romMax = 3584 := rfl

end Sys2Proof

namespace Sys2Proof.Machine.Memory

theorem wf_nil : wf [] := ⟨List.Pairwise.nil, by simp⟩

theorem wf_tail {c : Host.Cell} {m : Memory} (h : wf (c :: m)) : wf m :=
  ⟨h.1.of_cons, fun d hd => h.2 d (List.mem_cons_of_mem _ hd)⟩

/-- Below the first listed address a list of the canonical form reads as unlisted. -/
theorem read_of_lt {m : Memory} {a : Nat} (h : ∀ c ∈ m, a < c.1) : read m a = unlisted a := by
  cases m with
  | nil => rfl
  | cons c m =>
    have hc : a < c.1 := h c (by simp)
    simp [read, Nat.ne_of_lt hc, hc]

theorem read_put {a : Nat} {v : Byte} {m : Memory} (h : ∀ c ∈ m, a < c.1) (b : Nat) :
    read (put a v m) b = if b = a then v else read m b := by
  unfold put
  by_cases hv : v = unlisted a
  · rw [if_pos hv]
    split
    · next hb => rw [hb, read_of_lt h, hv]
    · rfl
  · rw [if_neg hv, read]
    by_cases hb : b = a
    · simp [hb]
    · by_cases hlt : b < a
      · simp [hb, hlt, read_of_lt fun c hc => Nat.lt_trans hlt (h c hc)]
      · simp [hb, hlt]

/-- A read after a write gives the byte written at its address, and what was there before elsewhere. -/
theorem read_write {m : Memory} (h : wf m) (a : Nat) (v : Byte) (b : Nat) :
    read (write m a v) b = if b = a then v else read m b := by
  induction m with
  | nil => exact read_put (by simp) b
  | cons c m ih =>
    obtain ⟨k, u⟩ := c
    have hm : ∀ d ∈ m, k < d.1 := fun _ => List.rel_of_pairwise_cons h.1
    unfold write
    by_cases h1 : a < k
    · rw [if_pos h1]
      refine read_put (fun d hd => ?_) b
      rcases List.mem_cons.1 hd with rfl | hd
      · exact h1
      · exact Nat.lt_trans h1 (hm d hd)
    · rw [if_neg h1]
      by_cases h2 : a = k
      · subst h2
        rw [if_pos rfl, read_put hm, read]
        by_cases hb : b = a
        · simp [hb]
        · by_cases hlt : b < a
          · simp [hb, hlt, read_of_lt fun c hc => Nat.lt_trans hlt (hm c hc)]
          · simp [hb, hlt]
      · rw [if_neg h2, read, ih (wf_tail h), read]
        by_cases hb : b = k
        · subst hb; simp [Ne.symm h2]
        · by_cases hlt : b < k
          · have : b ≠ a := by omega
            simp [hb, hlt, this]
          · simp [hb, hlt]

theorem mem_put {a : Nat} {v : Byte} {m : Memory} {c : Host.Cell} (h : c ∈ put a v m) :
    c ∈ m ∨ c.1 = a ∧ c.2 = v ∧ v ≠ unlisted a := by
  unfold put at h
  split at h
  · exact .inl h
  · next hv =>
    rcases List.mem_cons.1 h with rfl | h
    · exact .inr ⟨rfl, rfl, hv⟩
    · exact .inl h

theorem put_wf {a : Nat} {v : Byte} {m : Memory} (hm : wf m) (ha : a < memSize) (h : ∀ c ∈ m, a < c.1) :
    wf (put a v m) := by
  unfold put
  split
  · exact hm
  · next hv =>
    refine ⟨List.Pairwise.cons h hm.1, fun c hc => ?_⟩
    rcases List.mem_cons.1 hc with rfl | hc
    · exact ⟨ha, hv⟩
    · exact hm.2 c hc

/-- The addresses a write lists are those listed before and its own. -/
theorem mem_write {m : Memory} {a : Nat} {v : Byte} {c : Host.Cell} (h : c ∈ write m a v) :
    c ∈ m ∨ c.1 = a ∧ c.2 = v ∧ v ≠ unlisted a := by
  induction m with
  | nil => exact mem_put h
  | cons d m ih =>
    obtain ⟨k, u⟩ := d
    unfold write at h
    split at h
    · exact mem_put h
    · split at h
      · rcases mem_put h with h | h
        · exact .inl (List.mem_cons_of_mem _ h)
        · exact .inr h
      · rcases List.mem_cons.1 h with rfl | h
        · exact .inl (by simp)
        · exact (ih h).imp (List.mem_cons_of_mem _) id

/-- A write inside the address space keeps the canonical form. -/
theorem write_wf {m : Memory} (h : wf m) {a : Nat} (ha : a < memSize) (v : Byte) : wf (write m a v) := by
  induction m with
  | nil => exact put_wf wf_nil ha (by simp)
  | cons c m ih =>
    obtain ⟨k, u⟩ := c
    have hm : ∀ d ∈ m, k < d.1 := fun _ => List.rel_of_pairwise_cons h.1
    unfold write
    split
    · next h1 =>
      refine put_wf h ha fun d hd => ?_
      rcases List.mem_cons.1 hd with rfl | hd
      · exact h1
      · exact Nat.lt_trans h1 (hm d hd)
    · split
      · next h2 => subst h2; exact put_wf (wf_tail h) ha hm
      · next h1 h2 =>
        refine ⟨List.Pairwise.cons (fun d hd => ?_) (ih (wf_tail h)).1, fun d hd => ?_⟩
        · rcases mem_write hd with hd | ⟨hd, -⟩
          · exact hm d hd
          · show k < d.1
            omega
        · rcases List.mem_cons.1 hd with rfl | hd
          · exact h.2 _ (by simp)
          · exact (ih (wf_tail h)).2 d hd

/-- A sequence stored inside the address space keeps the canonical form. -/
theorem storeBytes_wf (bs : List Byte) : ∀ {m : Memory} {base : Nat}, wf m → base + bs.length ≤ memSize →
    wf (storeBytes m base bs) := by
  induction bs with
  | nil => exact fun h _ => h
  | cons b bs ih =>
    intro m base h hl
    have hl' : base + (bs.length + 1) ≤ memSize := hl
    exact ih (write_wf h (by omega) b) (by omega)

/-- After a sequence is stored from `base` on, an address inside it reads as its byte, every other address as before. -/
theorem read_storeBytes (bs : List Byte) : ∀ {m : Memory} {base : Nat}, wf m → base + bs.length ≤ memSize → ∀ a,
    read (storeBytes m base bs) a =
      if base ≤ a ∧ a < base + bs.length then bs.getD (a - base) 0 else read m a := by
  induction bs with
  | nil => intro m base _ _ a; rw [if_neg (by simp)]; rfl
  | cons b bs ih =>
    intro m base h hl a
    have hl' : base + (bs.length + 1) ≤ memSize := hl
    rw [storeBytes, ih (write_wf h (by omega) b) (by omega), read_write h, List.length_cons]
    by_cases h1 : a = base
    · subst h1
      rw [if_neg (by omega), if_pos rfl, if_pos (by omega), Nat.sub_self]; rfl
    · rw [if_neg h1]
      by_cases h2 : base + 1 ≤ a ∧ a < base + 1 + bs.length
      · rw [if_pos h2, if_pos (by omega), show a - base = (a - (base + 1)) + 1 by omega]; rfl
      · rw [if_neg h2, if_neg (by omega)]

@[simp] theorem loadBytes_length (m : Memory) (base n : Nat) : (loadBytes m base n).length = n := by simp [loadBytes]

theorem loadBytes_getD (m : Memory) {base n k : Nat} (h : k < n) : (loadBytes m base n).getD k 0 = read m (base + k) := by
  simp [loadBytes, h]

end Sys2Proof.Machine.Memory
end

