-- ==== Sys2Proof/Laws/State.lean ====
section
/-! SUPPORT. One lemma per field per update of the state, so that no proof unfolds a record update. -/

namespace Sys2Proof.Machine.State

variable (s : State)

@[simp] theorem setV_V (x : Reg) (b : Byte) : (s.setV x b).V = s.V.set x.val b := rfl
@[simp] theorem setV_I (x : Reg) (b : Byte) : (s.setV x b).I = s.I := rfl
@[simp] theorem setV_pc (x : Reg) (b : Byte) : (s.setV x b).pc = s.pc := rfl
@[simp] theorem setV_S (x : Reg) (b : Byte) : (s.setV x b).S = s.S := rfl
@[simp] theorem setV_SP (x : Reg) (b : Byte) : (s.setV x b).SP = s.SP := rfl
@[simp] theorem setV_DT (x : Reg) (b : Byte) : (s.setV x b).DT = s.DT := rfl
@[simp] theorem setV_ST (x : Reg) (b : Byte) : (s.setV x b).ST = s.ST := rfl
@[simp] theorem setV_K (x : Reg) (b : Byte) : (s.setV x b).K = s.K := rfl
@[simp] theorem setV_FB (x : Reg) (b : Byte) : (s.setV x b).FB = s.FB := rfl
@[simp] theorem setV_M (x : Reg) (b : Byte) : (s.setV x b).M = s.M := rfl
@[simp] theorem setV_log (x : Reg) (b : Byte) : (s.setV x b).log = s.log := rfl
@[simp] theorem setV_halted (x : Reg) (b : Byte) : (s.setV x b).halted = s.halted := rfl
@[simp] theorem setV_rnd (x : Reg) (b : Byte) : (s.setV x b).rnd = s.rnd := rfl
@[simp] theorem setV_inputs (x : Reg) (b : Byte) : (s.setV x b).inputs = s.inputs := rfl
@[simp] theorem setV_cycleNo (x : Reg) (b : Byte) : (s.setV x b).cycleNo = s.cycleNo := rfl

@[simp] theorem setI_V (w : Word) : (s.setI w).V = s.V := rfl
@[simp] theorem setI_I (w : Word) : (s.setI w).I = w := rfl
@[simp] theorem setI_pc (w : Word) : (s.setI w).pc = s.pc := rfl
@[simp] theorem setI_S (w : Word) : (s.setI w).S = s.S := rfl
@[simp] theorem setI_SP (w : Word) : (s.setI w).SP = s.SP := rfl
@[simp] theorem setI_DT (w : Word) : (s.setI w).DT = s.DT := rfl
@[simp] theorem setI_ST (w : Word) : (s.setI w).ST = s.ST := rfl
@[simp] theorem setI_K (w : Word) : (s.setI w).K = s.K := rfl
@[simp] theorem setI_FB (w : Word) : (s.setI w).FB = s.FB := rfl
@[simp] theorem setI_M (w : Word) : (s.setI w).M = s.M := rfl
@[simp] theorem setI_log (w : Word) : (s.setI w).log = s.log := rfl
@[simp] theorem setI_halted (w : Word) : (s.setI w).halted = s.halted := rfl
@[simp] theorem setI_rnd (w : Word) : (s.setI w).rnd = s.rnd := rfl
@[simp] theorem setI_inputs (w : Word) : (s.setI w).inputs = s.inputs := rfl
@[simp] theorem setI_cycleNo (w : Word) : (s.setI w).cycleNo = s.cycleNo := rfl
@[simp] theorem setI_getV (w : Word) (r : Reg) : (s.setI w).getV r = s.getV r := rfl

@[simp] theorem setPc_V (w : Word) : (s.setPc w).V = s.V := rfl
@[simp] theorem setPc_I (w : Word) : (s.setPc w).I = s.I := rfl
@[simp] theorem setPc_pc (w : Word) : (s.setPc w).pc = w := rfl
@[simp] theorem setPc_S (w : Word) : (s.setPc w).S = s.S := rfl
@[simp] theorem setPc_SP (w : Word) : (s.setPc w).SP = s.SP := rfl
@[simp] theorem setPc_DT (w : Word) : (s.setPc w).DT = s.DT := rfl
@[simp] theorem setPc_ST (w : Word) : (s.setPc w).ST = s.ST := rfl
@[simp] theorem setPc_K (w : Word) : (s.setPc w).K = s.K := rfl
@[simp] theorem setPc_FB (w : Word) : (s.setPc w).FB = s.FB := rfl
@[simp] theorem setPc_M (w : Word) : (s.setPc w).M = s.M := rfl
@[simp] theorem setPc_log (w : Word) : (s.setPc w).log = s.log := rfl
@[simp] theorem setPc_halted (w : Word) : (s.setPc w).halted = s.halted := rfl
@[simp] theorem setPc_rnd (w : Word) : (s.setPc w).rnd = s.rnd := rfl
@[simp] theorem setPc_inputs (w : Word) : (s.setPc w).inputs = s.inputs := rfl
@[simp] theorem setPc_cycleNo (w : Word) : (s.setPc w).cycleNo = s.cycleNo := rfl
@[simp] theorem setPc_getV (w : Word) (r : Reg) : (s.setPc w).getV r = s.getV r := rfl

@[simp] theorem skipIf_V (c : Bool) : (s.skipIf c).V = s.V := rfl
@[simp] theorem skipIf_I (c : Bool) : (s.skipIf c).I = s.I := rfl
@[simp] theorem skipIf_pc (c : Bool) : (s.skipIf c).pc = if c then s.pc + 2 else s.pc := rfl
@[simp] theorem skipIf_S (c : Bool) : (s.skipIf c).S = s.S := rfl
@[simp] theorem skipIf_SP (c : Bool) : (s.skipIf c).SP = s.SP := rfl
@[simp] theorem skipIf_DT (c : Bool) : (s.skipIf c).DT = s.DT := rfl
@[simp] theorem skipIf_ST (c : Bool) : (s.skipIf c).ST = s.ST := rfl
@[simp] theorem skipIf_K (c : Bool) : (s.skipIf c).K = s.K := rfl
@[simp] theorem skipIf_FB (c : Bool) : (s.skipIf c).FB = s.FB := rfl
@[simp] theorem skipIf_M (c : Bool) : (s.skipIf c).M = s.M := rfl
@[simp] theorem skipIf_log (c : Bool) : (s.skipIf c).log = s.log := rfl
@[simp] theorem skipIf_halted (c : Bool) : (s.skipIf c).halted = s.halted := rfl
@[simp] theorem skipIf_rnd (c : Bool) : (s.skipIf c).rnd = s.rnd := rfl
@[simp] theorem skipIf_inputs (c : Bool) : (s.skipIf c).inputs = s.inputs := rfl
@[simp] theorem skipIf_cycleNo (c : Bool) : (s.skipIf c).cycleNo = s.cycleNo := rfl
@[simp] theorem skipIf_getV (c : Bool) (r : Reg) : (s.skipIf c).getV r = s.getV r := rfl

@[simp] theorem setDT_V (b : Byte) : (s.setDT b).V = s.V := rfl
@[simp] theorem setDT_I (b : Byte) : (s.setDT b).I = s.I := rfl
@[simp] theorem setDT_pc (b : Byte) : (s.setDT b).pc = s.pc := rfl
@[simp] theorem setDT_S (b : Byte) : (s.setDT b).S = s.S := rfl
@[simp] theorem setDT_SP (b : Byte) : (s.setDT b).SP = s.SP := rfl
@[simp] theorem setDT_DT (b : Byte) : (s.setDT b).DT = b := rfl
@[simp] theorem setDT_ST (b : Byte) : (s.setDT b).ST = s.ST := rfl
@[simp] theorem setDT_K (b : Byte) : (s.setDT b).K = s.K := rfl
@[simp] theorem setDT_FB (b : Byte) : (s.setDT b).FB = s.FB := rfl
@[simp] theorem setDT_M (b : Byte) : (s.setDT b).M = s.M := rfl
@[simp] theorem setDT_log (b : Byte) : (s.setDT b).log = s.log := rfl
@[simp] theorem setDT_halted (b : Byte) : (s.setDT b).halted = s.halted := rfl
@[simp] theorem setDT_rnd (b : Byte) : (s.setDT b).rnd = s.rnd := rfl
@[simp] theorem setDT_inputs (b : Byte) : (s.setDT b).inputs = s.inputs := rfl
@[simp] theorem setDT_cycleNo (b : Byte) : (s.setDT b).cycleNo = s.cycleNo := rfl
@[simp] theorem setDT_getV (b : Byte) (r : Reg) : (s.setDT b).getV r = s.getV r := rfl

@[simp] theorem setST_V (b : Byte) : (s.setST b).V = s.V := rfl
@[simp] theorem setST_I (b : Byte) : (s.setST b).I = s.I := rfl
@[simp] theorem setST_pc (b : Byte) : (s.setST b).pc = s.pc := rfl
@[simp] theorem setST_S (b : Byte) : (s.setST b).S = s.S := rfl
@[simp] theorem setST_SP (b : Byte) : (s.setST b).SP = s.SP := rfl
@[simp] theorem setST_DT (b : Byte) : (s.setST b).DT = s.DT := rfl
@[simp] theorem setST_ST (b : Byte) : (s.setST b).ST = b := rfl
@[simp] theorem setST_K (b : Byte) : (s.setST b).K = s.K := rfl
@[simp] theorem setST_FB (b : Byte) : (s.setST b).FB = s.FB := rfl
@[simp] theorem setST_M (b : Byte) : (s.setST b).M = s.M := rfl
@[simp] theorem setST_log (b : Byte) : (s.setST b).log = s.log := rfl
@[simp] theorem setST_halted (b : Byte) : (s.setST b).halted = s.halted := rfl
@[simp] theorem setST_rnd (b : Byte) : (s.setST b).rnd = s.rnd := rfl
@[simp] theorem setST_inputs (b : Byte) : (s.setST b).inputs = s.inputs := rfl
@[simp] theorem setST_cycleNo (b : Byte) : (s.setST b).cycleNo = s.cycleNo := rfl
@[simp] theorem setST_getV (b : Byte) (r : Reg) : (s.setST b).getV r = s.getV r := rfl

@[simp] theorem setM_V (m : Memory) : (s.setM m).V = s.V := rfl
@[simp] theorem setM_I (m : Memory) : (s.setM m).I = s.I := rfl
@[simp] theorem setM_pc (m : Memory) : (s.setM m).pc = s.pc := rfl
@[simp] theorem setM_S (m : Memory) : (s.setM m).S = s.S := rfl
@[simp] theorem setM_SP (m : Memory) : (s.setM m).SP = s.SP := rfl
@[simp] theorem setM_DT (m : Memory) : (s.setM m).DT = s.DT := rfl
@[simp] theorem setM_ST (m : Memory) : (s.setM m).ST = s.ST := rfl
@[simp] theorem setM_K (m : Memory) : (s.setM m).K = s.K := rfl
@[simp] theorem setM_FB (m : Memory) : (s.setM m).FB = s.FB := rfl
@[simp] theorem setM_M (m : Memory) : (s.setM m).M = m := rfl
@[simp] theorem setM_log (m : Memory) : (s.setM m).log = s.log := rfl
@[simp] theorem setM_halted (m : Memory) : (s.setM m).halted = s.halted := rfl
@[simp] theorem setM_rnd (m : Memory) : (s.setM m).rnd = s.rnd := rfl
@[simp] theorem setM_inputs (m : Memory) : (s.setM m).inputs = s.inputs := rfl
@[simp] theorem setM_cycleNo (m : Memory) : (s.setM m).cycleNo = s.cycleNo := rfl
@[simp] theorem setM_getV (m : Memory) (r : Reg) : (s.setM m).getV r = s.getV r := rfl

@[simp] theorem setFB_V (fb : Framebuffer) : (s.setFB fb).V = s.V := rfl
@[simp] theorem setFB_I (fb : Framebuffer) : (s.setFB fb).I = s.I := rfl
@[simp] theorem setFB_pc (fb : Framebuffer) : (s.setFB fb).pc = s.pc := rfl
@[simp] theorem setFB_S (fb : Framebuffer) : (s.setFB fb).S = s.S := rfl
@[simp] theorem setFB_SP (fb : Framebuffer) : (s.setFB fb).SP = s.SP := rfl
@[simp] theorem setFB_DT (fb : Framebuffer) : (s.setFB fb).DT = s.DT := rfl
@[simp] theorem setFB_ST (fb : Framebuffer) : (s.setFB fb).ST = s.ST := rfl
@[simp] theorem setFB_K (fb : Framebuffer) : (s.setFB fb).K = s.K := rfl
@[simp] theorem setFB_FB (fb : Framebuffer) : (s.setFB fb).FB = fb := rfl
@[simp] theorem setFB_M (fb : Framebuffer) : (s.setFB fb).M = s.M := rfl
@[simp] theorem setFB_log (fb : Framebuffer) : (s.setFB fb).log = s.log := rfl
@[simp] theorem setFB_halted (fb : Framebuffer) : (s.setFB fb).halted = s.halted := rfl
@[simp] theorem setFB_rnd (fb : Framebuffer) : (s.setFB fb).rnd = s.rnd := rfl
@[simp] theorem setFB_inputs (fb : Framebuffer) : (s.setFB fb).inputs = s.inputs := rfl
@[simp] theorem setFB_cycleNo (fb : Framebuffer) : (s.setFB fb).cycleNo = s.cycleNo := rfl
@[simp] theorem setFB_getV (fb : Framebuffer) (r : Reg) : (s.setFB fb).getV r = s.getV r := rfl

@[simp] theorem takeEvent_V (e : Event) : (s.takeEvent e).V = s.V := rfl
@[simp] theorem takeEvent_I (e : Event) : (s.takeEvent e).I = s.I := rfl
@[simp] theorem takeEvent_pc (e : Event) : (s.takeEvent e).pc = s.pc := rfl
@[simp] theorem takeEvent_S (e : Event) : (s.takeEvent e).S = s.S := rfl
@[simp] theorem takeEvent_SP (e : Event) : (s.takeEvent e).SP = s.SP := rfl
@[simp] theorem takeEvent_DT (e : Event) : (s.takeEvent e).DT = s.DT := rfl
@[simp] theorem takeEvent_ST (e : Event) : (s.takeEvent e).ST = s.ST := rfl
@[simp] theorem takeEvent_K (e : Event) : (s.takeEvent e).K = s.K := rfl
@[simp] theorem takeEvent_FB (e : Event) : (s.takeEvent e).FB = s.FB := rfl
@[simp] theorem takeEvent_M (e : Event) : (s.takeEvent e).M = s.M := rfl
@[simp] theorem takeEvent_log (e : Event) : (s.takeEvent e).log = s.log ++ [e] := rfl
@[simp] theorem takeEvent_halted (e : Event) : (s.takeEvent e).halted = if e.code.isFault then some e else s.halted := rfl
@[simp] theorem takeEvent_rnd (e : Event) : (s.takeEvent e).rnd = s.rnd := rfl
@[simp] theorem takeEvent_inputs (e : Event) : (s.takeEvent e).inputs = s.inputs := rfl
@[simp] theorem takeEvent_cycleNo (e : Event) : (s.takeEvent e).cycleNo = s.cycleNo := rfl
@[simp] theorem takeEvent_getV (e : Event) (r : Reg) : (s.takeEvent e).getV r = s.getV r := rfl

@[simp] theorem raise_V (c : EventCode) (w : Word) (o : Option Nat) : (s.raise c w o).V = s.V := rfl
@[simp] theorem raise_I (c : EventCode) (w : Word) (o : Option Nat) : (s.raise c w o).I = s.I := rfl
@[simp] theorem raise_pc (c : EventCode) (w : Word) (o : Option Nat) : (s.raise c w o).pc = s.pc := rfl
@[simp] theorem raise_S (c : EventCode) (w : Word) (o : Option Nat) : (s.raise c w o).S = s.S := rfl
@[simp] theorem raise_SP (c : EventCode) (w : Word) (o : Option Nat) : (s.raise c w o).SP = s.SP := rfl
@[simp] theorem raise_DT (c : EventCode) (w : Word) (o : Option Nat) : (s.raise c w o).DT = s.DT := rfl
@[simp] theorem raise_ST (c : EventCode) (w : Word) (o : Option Nat) : (s.raise c w o).ST = s.ST := rfl
@[simp] theorem raise_K (c : EventCode) (w : Word) (o : Option Nat) : (s.raise c w o).K = s.K := rfl
@[simp] theorem raise_FB (c : EventCode) (w : Word) (o : Option Nat) : (s.raise c w o).FB = s.FB := rfl
@[simp] theorem raise_M (c : EventCode) (w : Word) (o : Option Nat) : (s.raise c w o).M = s.M := rfl
@[simp] theorem raise_log (c : EventCode) (w : Word) (o : Option Nat) : (s.raise c w o).log = s.log ++ [s.handlerEvent c w o] := rfl
@[simp] theorem raise_halted (c : EventCode) (w : Word) (o : Option Nat) : (s.raise c w o).halted = if c.isFault then some (s.handlerEvent c w o) else s.halted := rfl
@[simp] theorem raise_rnd (c : EventCode) (w : Word) (o : Option Nat) : (s.raise c w o).rnd = s.rnd := rfl
@[simp] theorem raise_inputs (c : EventCode) (w : Word) (o : Option Nat) : (s.raise c w o).inputs = s.inputs := rfl
@[simp] theorem raise_cycleNo (c : EventCode) (w : Word) (o : Option Nat) : (s.raise c w o).cycleNo = s.cycleNo := rfl
@[simp] theorem raise_getV (c : EventCode) (w : Word) (o : Option Nat) (r : Reg) : (s.raise c w o).getV r = s.getV r := rfl

@[simp] theorem raiseFetch_V (c : EventCode) : (s.raiseFetch c).V = s.V := rfl
@[simp] theorem raiseFetch_I (c : EventCode) : (s.raiseFetch c).I = s.I := rfl
@[simp] theorem raiseFetch_pc (c : EventCode) : (s.raiseFetch c).pc = s.pc := rfl
@[simp] theorem raiseFetch_S (c : EventCode) : (s.raiseFetch c).S = s.S := rfl
@[simp] theorem raiseFetch_SP (c : EventCode) : (s.raiseFetch c).SP = s.SP := rfl
@[simp] theorem raiseFetch_DT (c : EventCode) : (s.raiseFetch c).DT = s.DT := rfl
@[simp] theorem raiseFetch_ST (c : EventCode) : (s.raiseFetch c).ST = s.ST := rfl
@[simp] theorem raiseFetch_K (c : EventCode) : (s.raiseFetch c).K = s.K := rfl
@[simp] theorem raiseFetch_FB (c : EventCode) : (s.raiseFetch c).FB = s.FB := rfl
@[simp] theorem raiseFetch_M (c : EventCode) : (s.raiseFetch c).M = s.M := rfl
@[simp] theorem raiseFetch_log (c : EventCode) : (s.raiseFetch c).log = s.log ++ [⟨c, s.pc, none, none⟩] := rfl
@[simp] theorem raiseFetch_halted (c : EventCode) : (s.raiseFetch c).halted = if c.isFault then some ⟨c, s.pc, none, none⟩ else s.halted := rfl
@[simp] theorem raiseFetch_rnd (c : EventCode) : (s.raiseFetch c).rnd = s.rnd := rfl
@[simp] theorem raiseFetch_inputs (c : EventCode) : (s.raiseFetch c).inputs = s.inputs := rfl
@[simp] theorem raiseFetch_cycleNo (c : EventCode) : (s.raiseFetch c).cycleNo = s.cycleNo := rfl
@[simp] theorem raiseFetch_getV (c : EventCode) (r : Reg) : (s.raiseFetch c).getV r = s.getV r := rfl

@[simp] theorem afterFetch_V (k : Vector Bool 16) (b : Byte) : (s.afterFetch k b).V = s.V := rfl
@[simp] theorem afterFetch_I (k : Vector Bool 16) (b : Byte) : (s.afterFetch k b).I = s.I := rfl
@[simp] theorem afterFetch_pc (k : Vector Bool 16) (b : Byte) : (s.afterFetch k b).pc = s.pc + 2 := rfl
@[simp] theorem afterFetch_S (k : Vector Bool 16) (b : Byte) : (s.afterFetch k b).S = s.S := rfl
@[simp] theorem afterFetch_SP (k : Vector Bool 16) (b : Byte) : (s.afterFetch k b).SP = s.SP := rfl
@[simp] theorem afterFetch_DT (k : Vector Bool 16) (b : Byte) : (s.afterFetch k b).DT = s.DT := rfl
@[simp] theorem afterFetch_ST (k : Vector Bool 16) (b : Byte) : (s.afterFetch k b).ST = s.ST := rfl
@[simp] theorem afterFetch_K (k : Vector Bool 16) (b : Byte) : (s.afterFetch k b).K = k := rfl
@[simp] theorem afterFetch_FB (k : Vector Bool 16) (b : Byte) : (s.afterFetch k b).FB = s.FB := rfl
@[simp] theorem afterFetch_M (k : Vector Bool 16) (b : Byte) : (s.afterFetch k b).M = s.M := rfl
@[simp] theorem afterFetch_log (k : Vector Bool 16) (b : Byte) : (s.afterFetch k b).log = s.log := rfl
@[simp] theorem afterFetch_halted (k : Vector Bool 16) (b : Byte) : (s.afterFetch k b).halted = s.halted := rfl
@[simp] theorem afterFetch_rnd (k : Vector Bool 16) (b : Byte) : (s.afterFetch k b).rnd = b := rfl
@[simp] theorem afterFetch_inputs (k : Vector Bool 16) (b : Byte) : (s.afterFetch k b).inputs = s.inputs := rfl
@[simp] theorem afterFetch_cycleNo (k : Vector Bool 16) (b : Byte) : (s.afterFetch k b).cycleNo = s.cycleNo := rfl
@[simp] theorem afterFetch_getV (k : Vector Bool 16) (b : Byte) (r : Reg) : (s.afterFetch k b).getV r = s.getV r := rfl

@[simp] theorem tick_V : (s.tick).V = s.V := rfl
@[simp] theorem tick_I : (s.tick).I = s.I := rfl
@[simp] theorem tick_pc : (s.tick).pc = s.pc := rfl
@[simp] theorem tick_S : (s.tick).S = s.S := rfl
@[simp] theorem tick_SP : (s.tick).SP = s.SP := rfl
@[simp] theorem tick_DT : (s.tick).DT = tickDown s.DT := rfl
@[simp] theorem tick_ST : (s.tick).ST = tickDown s.ST := rfl
@[simp] theorem tick_K : (s.tick).K = s.K := rfl
@[simp] theorem tick_FB : (s.tick).FB = s.FB := rfl
@[simp] theorem tick_M : (s.tick).M = s.M := rfl
@[simp] theorem tick_log : (s.tick).log = s.log := rfl
@[simp] theorem tick_halted : (s.tick).halted = s.halted := rfl
@[simp] theorem tick_rnd : (s.tick).rnd = s.rnd := rfl
@[simp] theorem tick_inputs : (s.tick).inputs = s.inputs := rfl
@[simp] theorem tick_cycleNo : (s.tick).cycleNo = s.cycleNo := rfl
@[simp] theorem tick_getV (r : Reg) : (s.tick).getV r = s.getV r := rfl

@[simp] theorem ticks_V (n : Nat) : (s.ticks n).V = s.V := rfl
@[simp] theorem ticks_I (n : Nat) : (s.ticks n).I = s.I := rfl
@[simp] theorem ticks_pc (n : Nat) : (s.ticks n).pc = s.pc := rfl
@[simp] theorem ticks_S (n : Nat) : (s.ticks n).S = s.S := rfl
@[simp] theorem ticks_SP (n : Nat) : (s.ticks n).SP = s.SP := rfl
@[simp] theorem ticks_DT (n : Nat) : (s.ticks n).DT = tickDownBy n s.DT := rfl
@[simp] theorem ticks_ST (n : Nat) : (s.ticks n).ST = tickDownBy n s.ST := rfl
@[simp] theorem ticks_K (n : Nat) : (s.ticks n).K = s.K := rfl
@[simp] theorem ticks_FB (n : Nat) : (s.ticks n).FB = s.FB := rfl
@[simp] theorem ticks_M (n : Nat) : (s.ticks n).M = s.M := rfl
@[simp] theorem ticks_log (n : Nat) : (s.ticks n).log = s.log := rfl
@[simp] theorem ticks_halted (n : Nat) : (s.ticks n).halted = s.halted := rfl
@[simp] theorem ticks_rnd (n : Nat) : (s.ticks n).rnd = s.rnd := rfl
@[simp] theorem ticks_inputs (n : Nat) : (s.ticks n).inputs = s.inputs := rfl
@[simp] theorem ticks_cycleNo (n : Nat) : (s.ticks n).cycleNo = s.cycleNo := rfl
@[simp] theorem ticks_getV (n : Nat) (r : Reg) : (s.ticks n).getV r = s.getV r := rfl

@[simp] theorem hostActs_V : (s.hostActs).V = s.V := rfl
@[simp] theorem hostActs_I : (s.hostActs).I = s.I := rfl
@[simp] theorem hostActs_pc : (s.hostActs).pc = s.pc := rfl
@[simp] theorem hostActs_S : (s.hostActs).S = s.S := rfl
@[simp] theorem hostActs_SP : (s.hostActs).SP = s.SP := rfl
@[simp] theorem hostActs_DT : (s.hostActs).DT = tickDownBy s.nextInput.ticks s.DT := rfl
@[simp] theorem hostActs_ST : (s.hostActs).ST = tickDownBy s.nextInput.ticks s.ST := rfl
@[simp] theorem hostActs_K : (s.hostActs).K = s.K := rfl
@[simp] theorem hostActs_FB : (s.hostActs).FB = s.FB := rfl
@[simp] theorem hostActs_M : (s.hostActs).M = s.M := rfl
@[simp] theorem hostActs_log : (s.hostActs).log = s.log := rfl
@[simp] theorem hostActs_halted : (s.hostActs).halted = s.halted := rfl
@[simp] theorem hostActs_rnd : (s.hostActs).rnd = s.rnd := rfl
@[simp] theorem hostActs_inputs : (s.hostActs).inputs = s.inputs.tail := rfl
@[simp] theorem hostActs_cycleNo : (s.hostActs).cycleNo = s.cycleNo + 1 := rfl
@[simp] theorem hostActs_getV (r : Reg) : (s.hostActs).getV r = s.getV r := rfl

@[simp] theorem setV_getV_same (x : Reg) (b : Byte) : (s.setV x b).getV x = b := by simp [getV]

theorem setV_getV (x r : Reg) (b : Byte) : (s.setV x b).getV r = if r = x then b else s.getV r := by
  simp only [getV, setV_V, Vector.getElem_set, Fin.val_inj, eq_comm (a := x)]

@[simp] theorem setV_getV_ne {x r : Reg} (h : r ≠ x) (b : Byte) : (s.setV x b).getV r = s.getV r := by
  rw [setV_getV, if_neg h]

end Sys2Proof.Machine.State
end

