-- ==== Sys2Proof/Laws/Ops.lean ====
section
/-! SUPPORT. What the shared operations do, one lemma each: the range check, the registers, the stack, the framebuffer, the
timers, the keypad scan and the events. -/

namespace Sys2Proof.Machine

/-! ## The range check -/

theorem firstBad_eq_none {base n : Nat} : firstBad base n = none ↔ n = 0 ∨ base + n ≤ memSize := by
  unfold firstBad
  split <;> simp_all

theorem firstBad_of_bad {base n : Nat} (hn : n ≠ 0) (h : memSize < base + n) :
    firstBad base n = some (max base memSize) := if_neg (by omega)

/-! ## Registers -/

theorem State.getV_eq {s t : State} (h : t.V = s.V) (r : Reg) : t.getV r = s.getV r := by rw [getV, getV]; simp only [h]

theorem getElem_setRegs (bs : List Byte) : ∀ (V : Vector Byte 16) (j : Nat) (r : Reg),
    (setRegs V j bs)[r.val] = if j ≤ r.val ∧ r.val < j + bs.length then bs.getD (r.val - j) 0 else V[r.val] := by
  induction bs with
  | nil => intro V j r; rw [if_neg (by simp)]; rfl
  | cons b bs ih =>
    intro V j r
    rw [setRegs, ih, List.length_cons, Vector.getElem_setIfInBounds]
    by_cases h1 : r.val = j
    · subst h1; simp
    · by_cases h2 : j + 1 ≤ r.val ∧ r.val < j + 1 + bs.length
      · rw [if_pos h2, if_pos (by omega), show r.val - j = (r.val - (j + 1)) + 1 by omega]; rfl
      · rw [if_neg h2, if_neg (by omega), if_neg (by omega)]

theorem State.regsUpTo_length (s : State) (x : Reg) : (s.regsUpTo x).length = x.val + 1 := by
  simp [regsUpTo]

theorem State.regsUpTo_getD (s : State) {x : Reg} {k : Nat} (h : k ≤ x.val) :
    (s.regsUpTo x).getD k 0 = s.getV ⟨k, by omega⟩ := by
  simp [regsUpTo, State.getV, List.getD_eq_getElem?_getD, show k < x.val + 1 by omega]

theorem mem_regParts {r x : Reg} : Part.reg r ∈ regParts x ↔ r ≤ x := by
  have : r ∈ keyOrder := by revert r; decide
  simp [regParts, this]

/-! ## The call stack -/

theorem spToInt_range (sp : Option (Fin 16)) : -1 ≤ spToInt sp ∧ spToInt sp ≤ 15 := by
  cases sp with
  | none => simp [spToInt]
  | some k => simp only [spToInt]; omega

theorem spToInt_eq_coe {sp : Option (Fin 16)} {k : Fin 16} : spToInt sp = k.val ↔ sp = some k := by
  cases sp <;> simp [spToInt, Fin.ext_iff]

theorem spToInt_eq_neg_one {sp : Option (Fin 16)} : spToInt sp = -1 ↔ sp = none := by
  cases sp <;> simp [spToInt]

theorem spToInt_spDown (k : Fin 16) : spToInt (spDown k) = (k.val : Int) - 1 := by
  unfold spDown
  split
  · simp [spToInt]; omega
  · simp [spToInt]; omega

theorem spFull_iff {sp : Option (Fin 16)} : spFull sp = true ↔ spToInt sp = 15 := by revert sp; decide

/-- A stack that is not full has a next entry, whose index is SP + 1. -/
theorem spUp_of_not_full {sp : Option (Fin 16)} (h : spToInt sp < 15) :
    ∃ k, spUp sp = some k ∧ (k.val : Int) = spToInt sp + 1 ∧ spDown k = sp := by
  revert sp; decide

/-- The push of a stack that is not full (10_state.md R27). -/
theorem State.push_of_not_full {s : State} (h : spToInt s.SP < 15) (v : Word) :
    ∃ k : Fin 16, (k.val : Int) = spToInt s.SP + 1 ∧ spDown k = s.SP ∧
      s.push v = { s with SP := some k, S := s.S.set k.val v } := by
  obtain ⟨k, h1, h2, h3⟩ := spUp_of_not_full h
  exact ⟨k, h2, h3, by simp [push, h1]⟩

/-! ## The framebuffer -/

theorem Framebuffer.get_put (fb : Framebuffer) {y x : Nat} (hy : y < 32) (hx : x < 64) (p : Pixel) (row col : Nat) :
    (fb.put y x p).get row col = if row = y ∧ col = x then p else fb.get row col := by
  unfold put get
  rw [dif_pos hy]
  by_cases h : row < 32 ∧ col < 64
  · rw [dif_pos h, dif_pos h]
    by_cases h1 : y = row
    · subst h1
      by_cases h2 : x = col
      · subst h2; simp
      · simp [h2, Ne.symm h2]
    · simp [h1, Ne.symm h1]
  · rw [dif_neg h, dif_neg h, if_neg (by omega)]

theorem Framebuffer.get_clear (row col : Nat) : Framebuffer.clear.get row col = .off := by
  unfold clear get; split <;> simp

theorem Framebuffer.ext_get {fb fc : Framebuffer} (h : ∀ row col, row < 32 → col < 64 → fb.get row col = fc.get row col) :
    fb = fc := by
  ext row hr col hc
  simpa [get, hr, hc] using h row col hr hc

@[simp] theorem Pixel.flip_flip (p : Pixel) : p.flip.flip = p := by cases p <;> rfl

/-! ## Timers -/

theorem tickDown_toNat (t : Byte) : (tickDown t).toNat = t.toNat - 1 := by
  unfold tickDown; split <;> bv_omega

theorem tickDownBy_toNat (n : Nat) (t : Byte) : (tickDownBy n t).toNat = t.toNat - n := by
  have := t.isLt
  unfold tickDownBy; split
  · simp_all
  · rw [BitVec.toNat_ofNat]; omega

/-! ## The keypad scan -/

theorem firstKey_eq_none {K : Vector Bool 16} : firstKey K = none ↔ ∀ j : Fin 16, K[j.val] = false := by
  have : ∀ j : Fin 16, j ∈ keyOrder := by decide
  simp [firstKey, this]

theorem keyOrder_ascending : keyOrder.Pairwise (· < ·) := by decide

/-- Every key stands in the scan after the smaller ones only. -/
theorem keyOrder_split : ∀ k : Fin 16, keyOrder = keyOrder.take k.val ++ k :: keyOrder.drop (k.val + 1) ∧
    ∀ j ∈ keyOrder.take k.val, j < k := by decide

theorem firstKey_eq_some {K : Vector Bool 16} {k : Fin 16} (hk : K[k.val] = true)
    (h : ∀ j : Fin 16, j < k → K[j.val] = false) : firstKey K = some k := by
  rw [firstKey, (keyOrder_split k).1, List.find?_append,
    List.find?_eq_none.2 fun j hj => by simp [h j ((keyOrder_split k).2 j hj)]]
  simp [hk]

/-! ## Events -/

theorem State.takeEvent_report (s : State) {e : Event} (h : e.code.isFault = false) :
    s.takeEvent e = { s with log := s.log ++ [e] } := by simp [takeEvent, h]

theorem State.takeEvent_fault (s : State) {e : Event} (h : e.code.isFault = true) :
    s.takeEvent e = { s with log := s.log ++ [e], halted := some e } := by simp [takeEvent, h]

end Sys2Proof.Machine
end

