-- ==== Sys2Proof/Laws/Display.lean ====
section
/-! SUPPORT. What the two loops of the sprite draw do to one pixel and to the collision flag (41_display.md R121, R124). -/

namespace Sys2Proof.Machine

/-- The column loop over `k` columns from `c` on: a pixel of the row toggles where the byte has a set bit on it, and the
flag is set where such a pixel was ON. -/
theorem drawColumns_spec (b : Byte) {y : Nat} (hy : y < 32) (x0 : Nat) (k : Nat) : ∀ (c : Nat) (fb : Framebuffer) (hit : Bool),
    (∀ row col, row < 32 → col < 64 →
      (drawColumns b y x0 (List.range' c k) (fb, hit)).1.get row col =
        if row = y ∧ x0 + c ≤ col ∧ col < x0 + c + k ∧ b.getLsbD (7 - (col - x0)) = true then (fb.get row col).flip
        else fb.get row col) ∧
    ((drawColumns b y x0 (List.range' c k) (fb, hit)).2 = true ↔
      hit = true ∨ ∃ col, col < 64 ∧ x0 + c ≤ col ∧ col < x0 + c + k ∧ b.getLsbD (7 - (col - x0)) = true ∧
        fb.get y col = .on) := by
  induction k with
  | zero =>
    intro c fb hit
    refine ⟨fun row col _ _ => ?_, ?_⟩
    · rw [if_neg (by omega)]; rfl
    · refine ⟨.inl, fun h => h.elim id fun ⟨col, h⟩ => ?_⟩
      omega
  | succ k ih =>
    intro c fb hit
    rw [List.range'_succ, drawColumns]
    by_cases hx : x0 + c ≥ 64
    · rw [if_pos hx]
      refine ⟨fun row col _ _ => ?_, .inl, fun h => h.elim id fun ⟨col, h⟩ => ?_⟩
      · rw [if_neg (by omega)]
      · omega
    · rw [if_neg hx]
      by_cases hb : b.getLsbD (7 - c) = true
      · rw [if_pos hb]
        obtain ⟨h1, h2⟩ := ih (c + 1) (fb.put y (x0 + c) (fb.get y (x0 + c)).flip) (hit || fb.get y (x0 + c) == .on)
        refine ⟨fun row col hr hc => ?_, ?_⟩
        · rw [h1 row col hr hc, Framebuffer.get_put fb hy (by omega)]
          by_cases hcol : row = y ∧ col = x0 + c
          · obtain ⟨rfl, rfl⟩ := hcol
            rw [if_neg (by omega), if_pos ⟨rfl, rfl⟩, if_pos ⟨rfl, by omega, by omega, by rwa [Nat.add_sub_cancel_left]⟩]
          · rw [if_neg hcol]
            by_cases hin : row = y ∧ x0 + (c + 1) ≤ col ∧ col < x0 + (c + 1) + k ∧ b.getLsbD (7 - (col - x0)) = true
            · rw [if_pos hin, if_pos ⟨hin.1, by omega, by omega, hin.2.2.2⟩]
            · rw [if_neg hin, if_neg fun h => hin ⟨h.1, by omega, by omega, h.2.2.2⟩]
        · rw [h2]
          simp only [Bool.or_eq_true, beq_iff_eq]
          constructor
          · rintro ((h | h) | ⟨col, hc, h3, h4, h5, h6⟩)
            · exact .inl h
            · exact .inr ⟨x0 + c, by omega, by omega, by omega, by rwa [Nat.add_sub_cancel_left], h⟩
            · rw [Framebuffer.get_put fb hy (by omega), if_neg (by omega)] at h6
              exact .inr ⟨col, hc, by omega, by omega, h5, h6⟩
          · rintro (h | ⟨col, hc, h3, h4, h5, h6⟩)
            · exact .inl (.inl h)
            · by_cases hcol : col = x0 + c
              · subst hcol; exact .inl (.inr h6)
              · refine .inr ⟨col, hc, by omega, by omega, h5, ?_⟩
                rwa [Framebuffer.get_put fb hy (by omega), if_neg (by omega)]
      · rw [if_neg hb]
        obtain ⟨h1, h2⟩ := ih (c + 1) fb hit
        have skip : ∀ col, x0 + c ≤ col → b.getLsbD (7 - (col - x0)) = true → x0 + (c + 1) ≤ col := fun col h3 h4 => by
          rcases Nat.eq_or_lt_of_le h3 with rfl | h5
          · rw [Nat.add_sub_cancel_left] at h4; exact absurd h4 hb
          · omega
        refine ⟨fun row col hr hc => ?_, ?_⟩
        · rw [h1 row col hr hc]
          refine if_congr ⟨fun h => ⟨h.1, by omega, by omega, h.2.2.2⟩, fun h => ⟨h.1, skip col h.2.1 h.2.2.2, by omega, h.2.2.2⟩⟩
            rfl rfl
        · rw [h2]
          refine or_congr_right ⟨fun ⟨col, h3, h4, h5, h6⟩ => ⟨col, h3, by omega, by omega, h6⟩,
            fun ⟨col, h3, h4, h5, h6⟩ => ⟨col, h3, skip col h4 h6.1, by omega, h6⟩⟩

/-- The row loop over `k` rows from `r` on. -/
theorem drawRows_spec (m : Memory) (base y0 x0 : Nat) (k : Nat) : ∀ (r : Nat) (fb : Framebuffer) (hit : Bool),
    (∀ row col, row < 32 → col < 64 →
      (drawRows m base y0 x0 (List.range' r k) (fb, hit)).1.get row col =
        if y0 + r ≤ row ∧ row < y0 + r + k ∧ x0 ≤ col ∧ col < x0 + 8 ∧
            (m.read (base + (row - y0))).getLsbD (7 - (col - x0)) = true then (fb.get row col).flip
        else fb.get row col) ∧
    ((drawRows m base y0 x0 (List.range' r k) (fb, hit)).2 = true ↔
      hit = true ∨ ∃ row col, row < 32 ∧ col < 64 ∧ y0 + r ≤ row ∧ row < y0 + r + k ∧ x0 ≤ col ∧ col < x0 + 8 ∧
        (m.read (base + (row - y0))).getLsbD (7 - (col - x0)) = true ∧ fb.get row col = .on) := by
  induction k with
  | zero =>
    intro r fb hit
    refine ⟨fun row col _ _ => ?_, .inl, fun h => h.elim id fun ⟨row, col, h⟩ => ?_⟩
    · rw [if_neg (by omega)]; rfl
    · omega
  | succ k ih =>
    intro r fb hit
    rw [List.range'_succ, drawRows]
    by_cases hy : y0 + r ≥ 32
    · rw [if_pos hy]
      refine ⟨fun row col _ _ => ?_, .inl, fun h => h.elim id fun ⟨row, col, h⟩ => ?_⟩
      · rw [if_neg (by omega)]
      · omega
    · rw [if_neg hy, List.range_eq_range']
      obtain ⟨c1, c2⟩ := drawColumns_spec (m.read (base + r)) (show y0 + r < 32 by omega) x0 8 0 fb hit
      generalize drawColumns (m.read (base + r)) (y0 + r) x0 (List.range' 0 8) (fb, hit) = acc at c1 c2 ⊢
      obtain ⟨fc, hit'⟩ := acc
      obtain ⟨h1, h2⟩ := ih (r + 1) fc hit'
      have here : ∀ row, row = y0 + r → base + (row - y0) = base + r := by omega
      refine ⟨fun row col hr hc => ?_, ?_⟩
      · rw [h1 row col hr hc]
        by_cases hrow : row = y0 + r
        · rw [if_neg (by omega), show fc.get row col = _ from c1 row col hr hc, here row hrow]
          exact if_congr ⟨fun h => ⟨by omega, by omega, by omega, by omega, h.2.2.2⟩,
            fun h => ⟨hrow, by omega, by omega, h.2.2.2.2⟩⟩ rfl rfl
        · rw [show fc.get row col = fb.get row col from (c1 row col hr hc).trans (if_neg fun h => hrow h.1)]
          exact if_congr ⟨fun h => ⟨by omega, by omega, h.2.2⟩, fun h => ⟨by omega, by omega, h.2.2⟩⟩ rfl rfl
      · rw [h2, show (hit' = true ↔ _) from c2]
        constructor
        · rintro ((h | ⟨col, a1, a2, a3, a4, a5⟩) | ⟨row, col, a1, a2, a3, a4, a5, a6, a7, a8⟩)
          · exact .inl h
          · exact .inr ⟨y0 + r, col, by omega, a1, by omega, by omega, by omega, by omega, by rwa [here _ rfl], a5⟩
          · rw [c1 row col a1 a2, if_neg (by omega)] at a8
            exact .inr ⟨row, col, a1, a2, by omega, by omega, a5, a6, a7, a8⟩
        · rintro (h | ⟨row, col, a1, a2, a3, a4, a5, a6, a7, a8⟩)
          · exact .inl (.inl h)
          · by_cases hrow : row = y0 + r
            · rw [here row hrow] at a7
              subst hrow
              exact .inl (.inr ⟨col, a2, by omega, by omega, a7, a8⟩)
            · refine .inr ⟨row, col, a1, a2, by omega, by omega, a5, a6, a7, ?_⟩
              rwa [c1 row col a1 a2, if_neg (by omega)]

/-- The sprite draw, pixel by pixel, and its collision. -/
theorem State.drawSprite_spec (s : State) (x y : Reg) (n : Nibble) :
    (∀ row col, row < 32 → col < 64 →
      (s.drawSprite x y n).1.get row col =
        if s.spriteBit (s.originX x) (s.originY y) n.toNat row col = true then (s.FB.get row col).flip
        else s.FB.get row col) ∧
    ((s.drawSprite x y n).2 = true ↔ ∃ row col, row < 32 ∧ col < 64 ∧ s.FB.get row col = .on ∧
      s.spriteBit (s.originX x) (s.originY y) n.toNat row col = true) := by
  rw [drawSprite, List.range_eq_range']
  obtain ⟨h1, h2⟩ := drawRows_spec s.M s.I.toNat (s.originY y) (s.originX x) n.toNat 0 s.FB false
  simp only [spriteBit, Bool.and_eq_true, decide_eq_true_eq]
  refine ⟨fun row col hr hc => ?_, ?_⟩
  · rw [h1 row col hr hc]
    exact if_congr ⟨fun h => ⟨⟨by omega, by omega, by omega, by omega⟩, h.2.2.2.2⟩,
      fun h => ⟨by omega, by omega, by omega, by omega, h.2⟩⟩ rfl rfl
  · rw [h2]
    constructor
    · rintro (h | ⟨row, col, a1, a2, a3, a4, a5, a6, a7, a8⟩)
      · cases h
      · exact ⟨row, col, a1, a2, a8, ⟨by omega, by omega, a5, a6⟩, a7⟩
    · rintro ⟨row, col, a1, a2, a8, ⟨a3, a4, a5, a6⟩, a7⟩
      exact .inr ⟨row, col, a1, a2, by omega, by omega, a5, a6, a7, a8⟩

end Sys2Proof.Machine
end

