-- ==== Sys2Proof/Laws/Exec.lean ====
section
/-! SUPPORT. What the shared operations of the meanings do, one lemma each, for the statements about `exec` to cite: an
event, a register write, a result with its flag, a store at I, a load from I, a skip on a key, a call. -/

namespace Sys2Proof.Machine

/-! ## Frames -/

theorem ChangesOnly.raise (s : State) (c : EventCode) (w : Word) (info : Option Nat) {ps : List Part}
    (h : Part.events ∈ ps) : ChangesOnly ps s (s.raise c w info) := by simp [ChangesOnly, h]

theorem ChangesOnly.setV (s : State) (x : Reg) (b : Byte) {ps : List Part} (h : Part.reg x ∈ ps) :
    ChangesOnly ps s (s.setV x b) :=
  ⟨fun _ hr => State.setV_getV_ne _ (by rintro rfl; exact hr h) _, by simp⟩

/-- A handler's fault is `HaltsWith`. -/
theorem HaltsWith.raise (s : State) {c : EventCode} (hc : c.isFault = true) (w : Word) (info : Option Nat) :
    HaltsWith { code := c, pc := s.pc - 2, instr := some w, info := info } s (s.raise c w info) :=
  ⟨rfl, if_pos hc, .raise s c w info (by simp)⟩

/-- A handler's report is `ReportsOnly`. -/
theorem ReportsOnly.raise (s : State) {c : EventCode} (hc : c.isFault = false) (w : Word) (info : Option Nat) :
    ReportsOnly { code := c, pc := s.pc - 2, instr := some w, info := info } s (s.raise c w info) :=
  ⟨rfl, if_neg (by show ¬ c.isFault = true; rw [hc]; decide), .raise s c w info (by simp)⟩

/-! ## A result and its flag (44_alu.md R181) -/

theorem State.writeFlagOp_of_ne (s : State) (op : FlagOp) {x : Reg} (h : x ≠ vF) (a b : Byte) :
    (s.writeFlagOp op x a b).getV x = flagOpResult op a b ∧ (s.writeFlagOp op x a b).getV vF = flagOpFlag op a b := by
  rw [writeFlagOp, if_neg h]
  exact ⟨by rw [setV_getV_ne _ h, setV_getV, if_pos rfl], by rw [setV_getV, if_pos rfl]⟩

theorem State.writeFlagOp_vF (s : State) (op : FlagOp) (a b : Byte) :
    (s.writeFlagOp op vF a b).getV vF = flagOpFlag op a b ∨ (s.writeFlagOp op vF a b).getV vF = flagOpResult op a b ∨
      (s.writeFlagOp op vF a b).getV vF = flagOpLiteral op a b := by
  rw [writeFlagOp, if_pos rfl, setV_getV, if_pos rfl, vfDest]
  cases Config.vfChoice op a b
  · exact .inl rfl
  · exact .inr (.inl rfl)
  · exact .inr (.inr rfl)

theorem ChangesOnly.writeFlagOp (s : State) (op : FlagOp) (x : Reg) (a b : Byte) :
    ChangesOnly [.reg x, .reg vF] s (s.writeFlagOp op x a b) := by
  unfold State.writeFlagOp
  split
  · exact .setV _ _ _ (by simp)
  · refine ⟨fun r hr => ?_, by simp⟩
    simp only [List.mem_cons, Part.reg.injEq, List.not_mem_nil, or_false, not_or] at hr
    rw [State.setV_getV_ne _ hr.2, State.setV_getV_ne _ hr.1]

/-! ## Stores and loads at I (20_memory.md R52, R53; 60_exceptions.md R307) -/

theorem State.storeAtI_of_fits {s : State} (i : Instr) {bs : List Byte} (h : s.I.toNat + bs.length ≤ memSize) :
    s.storeAtI i bs = s.setM (s.M.storeBytes (s.effAddr 0) bs) := by
  have hb : firstBad (s.effAddr 0) bs.length = none := firstBad_eq_none.2 (.inr h)
  rw [storeAtI, hb]

theorem State.storeAtI_of_bad {s : State} (i : Instr) {bs : List Byte} (hn : bs ≠ [])
    (h : memSize < s.I.toNat + bs.length) :
    s.storeAtI i bs = s.raise .memRangeData (encode i) (some (max s.I.toNat memSize)) := by
  have hb : firstBad (s.effAddr 0) bs.length = some (max s.I.toNat memSize) :=
    firstBad_of_bad (by rw [Ne, List.length_eq_zero_iff]; exact hn) h
  rw [storeAtI, hb]

theorem execLdVxMem_of_fits {s : State} {x : Reg} (h : s.I.toNat + x.val < memSize) :
    execLdVxMem x s = .next { s with V := setRegs s.V 0 (s.M.loadBytes (s.effAddr 0) (x.val + 1)) } := by
  have hb : firstBad (s.effAddr 0) (x.val + 1) = none := firstBad_eq_none.2 (.inr h)
  rw [execLdVxMem, hb]

theorem execLdVxMem_of_bad {s : State} {x : Reg} (h : memSize ≤ s.I.toNat + x.val) :
    execLdVxMem x s = .next (s.raise .memRangeData (encode (.ldVxMem x)) (some (max s.I.toNat memSize))) := by
  have hb : firstBad (s.effAddr 0) (x.val + 1) = some (max s.I.toNat memSize) :=
    firstBad_of_bad (by omega) (Nat.lt_succ_of_le h)
  rw [execLdVxMem, hb]

/-! ## A skip on a key (43_skip.md R164, R165) -/

theorem State.skipOnKey_of_key {s : State} (i : Instr) {x : Reg} {k : Fin 16} (h : (s.getV x).toNat = k.val)
    (pressed : Bool) : s.skipOnKey i x pressed = s.skipIf (s.K[k.val] == pressed) := by
  rw [skipOnKey, dif_pos (by omega)]; simp only [h]

theorem State.skipOnKey_of_range {s : State} (i : Instr) {x : Reg} (h : 15 < (s.getV x).toNat) (pressed : Bool) :
    s.skipOnKey i x pressed = s.raise .keyRange (encode i) (some (s.getV x).toNat) := by
  rw [skipOnKey, dif_neg (by omega)]

/-! ## A call (42_flow.md R142) -/

theorem execCall_of_room {s : State} (nnn : Addr12) (h : spToInt s.SP < 15) :
    execCall nnn s = .next ((s.push s.pc).setPc (zextAddr nnn)) := by
  rw [execCall, if_neg (by rw [spFull_iff]; omega)]

theorem execCall_of_full {s : State} (nnn : Addr12) (h : spToInt s.SP = 15) :
    execCall nnn s = .next (s.raise .stackOverflow (encode (.call nnn)) none) := by
  rw [execCall, if_pos (spFull_iff.2 h)]

end Sys2Proof.Machine
end

