-- ==== Sys2Proof/Laws/PerInstr.lean ====
section
/-! SUPPORT. One statement about every instruction as syntax, one lemma per constructor: its word matches its own row of
the opcode map (30_encoding.md R91, R95), read off the fixed bits the row gives. -/

namespace Sys2Proof.Laws.EncodeMatchesRow

/-- The number of an instruction's row in the opcode map (30_encoding.md R95). -/
def row : Instr → Nat
  | .cls => 0
  | .ret => 1
  | .jp _ => 2
  | .call _ => 3
  | .seNn _ _ => 4
  | .sneNn _ _ => 5
  | .seVy _ _ _ => 6
  | .ldNn _ _ => 7
  | .addNn _ _ => 8
  | .ldVy _ _ => 9
  | .orVy _ _ => 10
  | .andVy _ _ => 11
  | .xorVy _ _ => 12
  | .addVy _ _ => 13
  | .subVy _ _ => 14
  | .subnVy _ _ => 15
  | .shr _ _ => 16
  | .shl _ _ => 17
  | .sneVy _ _ _ => 18
  | .ldI _ => 19
  | .jpV0 _ => 20
  | .rnd _ _ => 21
  | .drw _ _ _ => 22
  | .skp _ => 23
  | .sknp _ => 24
  | .ldVxDt _ => 25
  | .ldDtVx _ => 26
  | .ldStVx _ => 27
  | .addI _ => 28
  | .ldVxK _ => 29
  | .ldF _ => 30
  | .ldB _ => 31
  | .ldMemVx _ => 32
  | .ldVxMem _ => 33

/-- The encoded word matches the row of its instruction. -/
def Statement (i : Instr) : Prop := ∃ r, opcodeTable[row i]? = some r ∧ r.accepts (encode i) = true

theorem accepts_NNN (m : String) (f : Nibble) (nnn : Addr12) (p : Word) (hp : p.toNat = f.toNat * 0x1000) :
    (OpcodeRow.mk m 0xF000 p).accepts (formatNNN f nnn) = true := by
  have := nnn.isLt
  rw [accepts_F000, toNat_formatNNN, hp]; omega

theorem accepts_XNN (m : String) (f : Nibble) (x : Reg) (nn : Byte) (p : Word) (hp : p.toNat = f.toNat * 0x1000) :
    (OpcodeRow.mk m 0xF000 p).accepts (formatXNN f x nn) = true := by
  have := nn.isLt
  rw [accepts_F000, toNat_formatXNN, hp]; omega

theorem accepts_XYN (m : String) (f : Nibble) (x y : Reg) (n : Nibble) (p : Word) (hp : p.toNat = f.toNat * 0x1000) :
    (OpcodeRow.mk m 0xF000 p).accepts (formatXYN f x y n) = true := by
  have := n.isLt
  rw [accepts_F000, toNat_formatXYN, hp]; omega

theorem accepts_XY (m : String) (f : Nibble) (x y : Reg) (n : Nibble) (p : Word)
    (hp : p.toNat = f.toNat * 0x1000 + n.toNat) : (OpcodeRow.mk m 0xF00F p).accepts (formatXYN f x y n) = true := by
  have := n.isLt
  rw [accepts_F00F, toNat_formatXYN, hp]; omega

theorem accepts_X (m : String) (f : Nibble) (x : Reg) (sub : Byte) (p : Word)
    (hp : p.toNat = f.toNat * 0x1000 + sub.toNat) : (OpcodeRow.mk m 0xF0FF p).accepts (formatX f x sub) = true := by
  have := sub.isLt
  rw [accepts_F0FF, toNat_formatX, hp]; omega

theorem cls : Statement .cls := ⟨_, rfl, rfl⟩
theorem ret : Statement .ret := ⟨_, rfl, rfl⟩
theorem jp (nnn : Addr12) : Statement (.jp nnn) := ⟨_, rfl, accepts_NNN _ _ _ _ rfl⟩
theorem call (nnn : Addr12) : Statement (.call nnn) := ⟨_, rfl, accepts_NNN _ _ _ _ rfl⟩
theorem seNn (x : Reg) (nn : Byte) : Statement (.seNn x nn) := ⟨_, rfl, accepts_XNN _ _ _ _ _ rfl⟩
theorem sneNn (x : Reg) (nn : Byte) : Statement (.sneNn x nn) := ⟨_, rfl, accepts_XNN _ _ _ _ _ rfl⟩
theorem seVy (x : Reg) (y : Reg) (n : Nibble) : Statement (.seVy x y n) := ⟨_, rfl, accepts_XYN _ _ _ _ _ _ rfl⟩
theorem ldNn (x : Reg) (nn : Byte) : Statement (.ldNn x nn) := ⟨_, rfl, accepts_XNN _ _ _ _ _ rfl⟩
theorem addNn (x : Reg) (nn : Byte) : Statement (.addNn x nn) := ⟨_, rfl, accepts_XNN _ _ _ _ _ rfl⟩
theorem ldVy (x : Reg) (y : Reg) : Statement (.ldVy x y) := ⟨_, rfl, accepts_XY _ _ _ _ _ _ rfl⟩
theorem orVy (x : Reg) (y : Reg) : Statement (.orVy x y) := ⟨_, rfl, accepts_XY _ _ _ _ _ _ rfl⟩
theorem andVy (x : Reg) (y : Reg) : Statement (.andVy x y) := ⟨_, rfl, accepts_XY _ _ _ _ _ _ rfl⟩
theorem xorVy (x : Reg) (y : Reg) : Statement (.xorVy x y) := ⟨_, rfl, accepts_XY _ _ _ _ _ _ rfl⟩
theorem addVy (x : Reg) (y : Reg) : Statement (.addVy x y) := ⟨_, rfl, accepts_XY _ _ _ _ _ _ rfl⟩
theorem subVy (x : Reg) (y : Reg) : Statement (.subVy x y) := ⟨_, rfl, accepts_XY _ _ _ _ _ _ rfl⟩
theorem subnVy (x : Reg) (y : Reg) : Statement (.subnVy x y) := ⟨_, rfl, accepts_XY _ _ _ _ _ _ rfl⟩
theorem shr (x : Reg) (y : Reg) : Statement (.shr x y) := ⟨_, rfl, accepts_XY _ _ _ _ _ _ rfl⟩
theorem shl (x : Reg) (y : Reg) : Statement (.shl x y) := ⟨_, rfl, accepts_XY _ _ _ _ _ _ rfl⟩
theorem sneVy (x : Reg) (y : Reg) (n : Nibble) : Statement (.sneVy x y n) := ⟨_, rfl, accepts_XYN _ _ _ _ _ _ rfl⟩
theorem ldI (nnn : Addr12) : Statement (.ldI nnn) := ⟨_, rfl, accepts_NNN _ _ _ _ rfl⟩
theorem jpV0 (nnn : Addr12) : Statement (.jpV0 nnn) := ⟨_, rfl, accepts_NNN _ _ _ _ rfl⟩
theorem rnd (x : Reg) (nn : Byte) : Statement (.rnd x nn) := ⟨_, rfl, accepts_XNN _ _ _ _ _ rfl⟩
theorem drw (x : Reg) (y : Reg) (n : Nibble) : Statement (.drw x y n) := ⟨_, rfl, accepts_XYN _ _ _ _ _ _ rfl⟩
theorem skp (x : Reg) : Statement (.skp x) := ⟨_, rfl, accepts_X _ _ _ _ _ rfl⟩
theorem sknp (x : Reg) : Statement (.sknp x) := ⟨_, rfl, accepts_X _ _ _ _ _ rfl⟩
theorem ldVxDt (x : Reg) : Statement (.ldVxDt x) := ⟨_, rfl, accepts_X _ _ _ _ _ rfl⟩
theorem ldDtVx (x : Reg) : Statement (.ldDtVx x) := ⟨_, rfl, accepts_X _ _ _ _ _ rfl⟩
theorem ldStVx (x : Reg) : Statement (.ldStVx x) := ⟨_, rfl, accepts_X _ _ _ _ _ rfl⟩
theorem addI (x : Reg) : Statement (.addI x) := ⟨_, rfl, accepts_X _ _ _ _ _ rfl⟩
theorem ldVxK (x : Reg) : Statement (.ldVxK x) := ⟨_, rfl, accepts_X _ _ _ _ _ rfl⟩
theorem ldF (x : Reg) : Statement (.ldF x) := ⟨_, rfl, accepts_X _ _ _ _ _ rfl⟩
theorem ldB (x : Reg) : Statement (.ldB x) := ⟨_, rfl, accepts_X _ _ _ _ _ rfl⟩
theorem ldMemVx (x : Reg) : Statement (.ldMemVx x) := ⟨_, rfl, accepts_X _ _ _ _ _ rfl⟩
theorem ldVxMem (x : Reg) : Statement (.ldVxMem x) := ⟨_, rfl, accepts_X _ _ _ _ _ rfl⟩

end Sys2Proof.Laws.EncodeMatchesRow
end

