-- ==== Sys2Proof/Laws/Step.lean ====
section
/-! SUPPORT. What a fetch, a cycle and a step can do, once (40_cycle.md R100 to R107). -/

namespace Sys2Proof.Machine

theorem fetch_of_fetchable {s : State} (h : Fetchable s) (p : FetchPolicy) : fetch p s = .ok s.wordAtPc := by
  obtain ⟨h1, h2⟩ := h
  have h2' : s.pc.toNat + 1 < 0x1000 := h2
  have h1' : 0x200 ≤ s.pc.toNat := h1
  rw [fetch, if_neg (by rintro ⟨h, -⟩; exact Nat.not_lt.2 h1 h), if_neg (by omega)]; rfl

theorem fetch_of_not_fetchable {s : State} (h : ¬ Fetchable s) :
    ∃ c, fetch fetchBelowRom s = .error c ∧ c.isFault = true ∧
      (c = .fetchReserved ∧ s.pc.toNat < romBase ∨ c = .memRangeFetch ∧ 0xFFF < s.pc.toNat + 1) := by
  unfold fetch
  by_cases h1 : s.pc.toNat < romBase
  · exact ⟨.fetchReserved, if_pos ⟨h1, rfl⟩, rfl, .inl ⟨rfl, h1⟩⟩
  · have h2 : 0xFFF < s.pc.toNat + 1 := by
      by_contra h2
      have : s.pc.toNat + 1 < 0x1000 := by omega
      exact h ⟨Nat.not_lt.1 h1, this⟩
    refine ⟨.memRangeFetch, ?_, rfl, .inr ⟨rfl, h2⟩⟩
    rw [if_neg fun h => h1 h.1, if_pos h2]

/-- The host's actions before a cycle change neither pc nor memory, so the fetch is that of the state before them. -/
@[simp] theorem hostActs_wordAtPc (s : State) : s.hostActs.wordAtPc = s.wordAtPc := rfl

theorem fetchable_hostActs {s : State} : Fetchable s.hostActs ↔ Fetchable s := Iff.rfl

/-- A step of a running engine on a fetchable pc is the dispatch of the word there. -/
theorem step_of_fetchable {s : State} (hr : Running s) (hf : Fetchable s) :
    step s = dispatch s.wordAtPc (s.hostActs.afterFetch s.nextInput.keys s.nextInput.rnd) := by
  have hr' : s.hostActs.halted = none := hr
  rw [step, cycle, hr']
  simp only [fetch_of_fetchable (fetchable_hostActs.2 hf), hostActs_wordAtPc]

/-- A step of a running engine elsewhere is a fetch fault, on the state the host left. -/
theorem step_of_not_fetchable {s : State} (hr : Running s) (hf : ¬ Fetchable s) :
    ∃ c : EventCode, step s = .next (s.hostActs.raiseFetch c) ∧ c.isFault = true ∧
      (c = .fetchReserved ∧ s.pc.toNat < romBase ∨ c = .memRangeFetch ∧ 0xFFF < s.pc.toNat + 1) := by
  have hr' : s.hostActs.halted = none := hr
  obtain ⟨c, h1, h2, h3⟩ := fetch_of_not_fetchable (s := s.hostActs) (fun h => hf (fetchable_hostActs.1 h))
  refine ⟨c, ?_, h2, h3⟩
  rw [step, cycle, hr']
  simp only [h1]

theorem step_of_halted {s : State} {e : Event} (h : s.halted = some e) : step s = .fault (.halted e) := by
  have h' : s.hostActs.halted = some e := h
  rw [step, cycle, h']

/-- Everything a step that answers a next state can have done: a fetch fault, an instruction, or an unrecognized word. -/
theorem step_cases {s t : State} (h : step s = .next t) :
    Running s ∧
      ((¬ Fetchable s ∧ ∃ c : EventCode, c.isFault = true ∧ t = s.hostActs.raiseFetch c) ∨
       (Fetchable s ∧ ∃ i, decode s.wordAtPc = .ok i ∧
          exec i (s.hostActs.afterFetch s.nextInput.keys s.nextInput.rnd) = .next t) ∨
       (Fetchable s ∧ ∃ r, decode s.wordAtPc = .error r ∧
          t = (s.hostActs.afterFetch s.nextInput.keys s.nextInput.rnd).unrecognized s.wordAtPc)) := by
  cases hh : s.halted with
  | some e => rw [step_of_halted hh] at h; cases h
  | none =>
    refine ⟨hh, ?_⟩
    by_cases hf : Fetchable s
    · rw [step_of_fetchable hh hf, dispatch] at h
      cases hd : decode s.wordAtPc with
      | ok i => rw [hd] at h; exact .inr (.inl ⟨hf, i, rfl, h⟩)
      | error r => rw [hd] at h; cases h; exact .inr (.inr ⟨hf, r, rfl, rfl⟩)
    · obtain ⟨c, h1, h2, -⟩ := step_of_not_fetchable hh hf
      rw [h1] at h; cases h
      exact .inl ⟨hf, c, h2, rfl⟩

end Sys2Proof.Machine
end

