-- ==== Sys2Proof/Tests/Slice0.lean ====
section
/-! SUPPORT. Tests: the checks of WellFormed, a written-out word for every constructor, one step of the spec's own vectors
(95_test_vectors.md; its row is named at each test), and a witness for the hypotheses of every obligation. -/

namespace Sys2Proof.Tests

open Sys2Proof.Machine

/-! ## WellFormed: each check refuses an ill-formed term (30_encoding.md R92, R93; 70_reset_and_hazards.md R343) -/

theorem test_rom_fits : romWellFormed (List.replicate 3584 0) = true := by decide +kernel

theorem test_rom_too_long : romWellFormed (List.replicate 3585 0) = false := by decide +kernel

/-- Vector V8's words. -/
theorem test_unrecognized_words :
    [0x00E1, 0x0123, 0x800F, 0xE000, 0xE09F, 0xF000, 0xF01F].all (fun w => !recognizedWord w && unrecognizedWord w) = true := by
  decide

theorem test_assembled_refuses_n :
    (Instr.seVy 1 2 7).assembled = false ∧ (Instr.sneVy 1 2 1).assembled = false ∧ (Instr.seVy 1 2 0).assembled = true := by
  decide

/-! ## Decoding: a word of every constructor, bit by bit from 30_encoding.md R82 and R95 -/

theorem test_decode_cls : decode 0b0000000011100000 = .ok .cls := by decide
theorem test_decode_ret : decode 0b0000000011101110 = .ok .ret := by decide
theorem test_decode_jp : decode 0b0001001000110100 = .ok (.jp 0x234) := by decide
theorem test_decode_call : decode 0b0010001000110100 = .ok (.call 0x234) := by decide
theorem test_decode_seNn : decode 0b0011101000101111 = .ok (.seNn 0xA 0x2F) := by decide
theorem test_decode_sneNn : decode 0b0100101000101111 = .ok (.sneNn 0xA 0x2F) := by decide
theorem test_decode_seVy : decode 0b0101000100100111 = .ok (.seVy 1 2 7) := by decide
theorem test_decode_ldNn : decode 0b0110101000101111 = .ok (.ldNn 0xA 0x2F) := by decide
theorem test_decode_addNn : decode 0b0111101000101111 = .ok (.addNn 0xA 0x2F) := by decide
theorem test_decode_ldVy : decode 0b1000000100100000 = .ok (.ldVy 1 2) := by decide
theorem test_decode_orVy : decode 0b1000000100100001 = .ok (.orVy 1 2) := by decide
theorem test_decode_andVy : decode 0b1000000100100010 = .ok (.andVy 1 2) := by decide
theorem test_decode_xorVy : decode 0b1000000100100011 = .ok (.xorVy 1 2) := by decide
theorem test_decode_addVy : decode 0b1000000100100100 = .ok (.addVy 1 2) := by decide
theorem test_decode_subVy : decode 0b1000000100100101 = .ok (.subVy 1 2) := by decide
theorem test_decode_subnVy : decode 0b1000000100100111 = .ok (.subnVy 1 2) := by decide
theorem test_decode_shr : decode 0b1000000100100110 = .ok (.shr 1 2) := by decide
theorem test_decode_shl : decode 0b1000000100101110 = .ok (.shl 1 2) := by decide
theorem test_decode_sneVy : decode 0b1001000100100001 = .ok (.sneVy 1 2 1) := by decide
theorem test_decode_ldI : decode 0b1010000100100011 = .ok (.ldI 0x123) := by decide
theorem test_decode_jpV0 : decode 0b1011010001010110 = .ok (.jpV0 0x456) := by decide
theorem test_decode_rnd : decode 0b1100001100001111 = .ok (.rnd 3 0x0F) := by decide
theorem test_decode_drw : decode 0b1101000100100101 = .ok (.drw 1 2 5) := by decide
theorem test_decode_skp : decode 0b1110001110011110 = .ok (.skp 3) := by decide
theorem test_decode_sknp : decode 0b1110001110100001 = .ok (.sknp 3) := by decide
theorem test_decode_ldVxDt : decode 0b1111001100000111 = .ok (.ldVxDt 3) := by decide
theorem test_decode_ldDtVx : decode 0b1111001100010101 = .ok (.ldDtVx 3) := by decide
theorem test_decode_ldStVx : decode 0b1111001100011000 = .ok (.ldStVx 3) := by decide
theorem test_decode_addI : decode 0b1111001000011110 = .ok (.addI 2) := by decide
theorem test_decode_ldVxK : decode 0b1111010100001010 = .ok (.ldVxK 5) := by decide
theorem test_decode_ldF : decode 0b1111001000101001 = .ok (.ldF 2) := by decide
theorem test_decode_ldB : decode 0b1111001000110011 = .ok (.ldB 2) := by decide
theorem test_decode_ldMemVx : decode 0b1111001001010101 = .ok (.ldMemVx 2) := by decide
theorem test_decode_ldVxMem : decode 0b1111001001100101 = .ok (.ldVxMem 2) := by decide

theorem test_decode_rejects_by_family :
    decode 0x0123 = .error .family0 ∧ decode 0x8008 = .error .family8 ∧ decode 0xE09F = .error .familyE ∧
    decode 0xF01F = .error .familyF ∧ decodeBytes [0x60] = .error .truncated := by decide

/-- Big-endian (vector V1): the high byte comes first. -/
theorem test_decode_bytes : decodeBytes [0x6A, 0x01, 0xFF] = .ok (.ldNn 0xA 0x01, [0xFF]) := by decide

theorem test_decodeTableWord : decodeTableWord 16 0xD125 = some (.drw 1 2 5) ∧ decodeTableWord 16 0x8008 = none := by decide

/-! ## One step of the spec's vectors -/

/-- The input of a cycle before which the host makes no tick. -/
def input (keys : List (Fin 16)) (rnd : Byte) : CycleInput :=
  { keys := Vector.ofFn fun k => keys.contains k, rnd := rnd, ticks := 0 }

/-- The reset state before a cycle with these keys and this random byte. -/
def ready (keys : List (Fin 16)) (rnd : Byte) : State := { State.reset with inputs := [input keys rnd] }

/-- The reset state before a cycle without keys. -/
def base : State := ready [] 0

/-- One step of the word `w` at pc answers a next state in which `p` holds. -/
def after (w : Nat) (s : State) (p : State → Bool) : Bool :=
  match step (s.withFetchWord 16 w) with
  | .next t => p t
  | .fault _ => false
  | .refused _ => false

/-- V6. -/
theorem test_unrecognized_reported : after 0x0000 (ready [2] 0) (fun t =>
    t.log == [⟨.unrecognizedOpcode, 0x200, some 0x0000, none⟩] && t.halted == none && t.pc == 0x202 && t.K[2] &&
    !t.K[3]) = true := by decide

/-- V3: a fetch at 0x1000 halts; the next step is none. -/
theorem test_fetch_beyond_halts : after 0x0000 { base with pc := 0x1000 } (fun t =>
    t.halted == some ⟨.memRangeFetch, 0x1000, none, none⟩ && t.pc == 0x1000) = true := by decide

/-- V5. -/
theorem test_fetch_reserved_halts : after 0x6A01 { base with pc := 0x1FE } (fun t =>
    t.halted == some ⟨.fetchReserved, 0x1FE, none, none⟩ && t.pc == 0x1FE) = true := by decide

/-- D1. -/
theorem test_cls : after 0x00E0 ({ base with FB := base.FB.put 31 63 .on }.setV 0xF 7) (fun t =>
    t.FB.get 31 63 == .off && t.getV 0xF == 7) = true := by decide

/-- F2. -/
theorem test_ret : after 0x00EE { base with SP := some 15, S := base.S.set 15 0x4A2, pc := 0x300 } (fun t =>
    t.pc == 0x4A2 && t.SP == some 14 && t.S[15] == 0x4A2) = true := by decide

/-- F1. -/
theorem test_ret_empty : after 0x00EE base (fun t =>
    t.log == [⟨.stackUnderflow, 0x200, some 0x00EE, none⟩] && t.halted == none && t.pc == 0x202 && t.SP == none) = true := by
  decide

/-- F6: odd targets are legal. -/
theorem test_jp : after 0x1333 base (fun t => t.pc == 0x333) = true := by decide

/-- F3. -/
theorem test_call : after 0x2400 { base with SP := some 14, pc := 0x300 } (fun t =>
    t.SP == some 15 && t.S[15] == 0x302 && t.pc == 0x400) = true := by decide

/-- F4. -/
theorem test_call_full : after 0x2400 { base with SP := some 15, S := base.S.set 15 0x222, pc := 0x300 } (fun t =>
    t.log == [⟨.stackOverflow, 0x300, some 0x2400, none⟩] && t.halted == none && t.pc == 0x302 && t.SP == some 15 &&
    t.S[15] == 0x222) = true := by decide

/-- K1, K2. -/
theorem test_seNn : (after 0x3A2F (base.setV 0xA 0x2F) (fun t => t.pc == 0x204) &&
    after 0x3A2F (base.setV 0xA 0x2E) (fun t => t.pc == 0x202)) = true := by decide

/-- K3, K4. -/
theorem test_sneNn : (after 0x4A2F (base.setV 0xA 0x2E) (fun t => t.pc == 0x204) &&
    after 0x4A2F (base.setV 0xA 0x2F) (fun t => t.pc == 0x202)) = true := by decide

/-- K6: the low nibble is ignored. -/
theorem test_seVy : after 0x5127 ((base.setV 1 9).setV 2 9) (fun t => t.pc == 0x204) = true := by decide

/-- K8, K9. -/
theorem test_sneVy : (after 0x9120 ((base.setV 1 9).setV 2 8) (fun t => t.pc == 0x204) &&
    after 0x9121 ((base.setV 1 9).setV 2 9) (fun t => t.pc == 0x202)) = true := by decide

/-- K10, K11. -/
theorem test_skp : (after 0xE39E ((ready [15] 0).setV 3 0xF) (fun t => t.pc == 0x204) &&
    after 0xE39E ((ready [14] 0).setV 3 0xF) (fun t => t.pc == 0x202)) = true := by decide

/-- K14. -/
theorem test_skp_range : after 0xE39E ((ready [0] 0).setV 3 0x10) (fun t =>
    t.halted == some ⟨.keyRange, 0x200, some 0xE39E, some 0x10⟩ && t.pc == 0x202) = true := by decide

/-- K12, K13. -/
theorem test_sknp : (after 0xE3A1 (base.setV 3 4) (fun t => t.pc == 0x204) &&
    after 0xE3A1 ((ready [4] 0).setV 3 4) (fun t => t.pc == 0x202)) = true := by decide

/-- K15. -/
theorem test_sknp_range : after 0xE3A1 (base.setV 3 0xFF) (fun t =>
    t.halted == some ⟨.keyRange, 0x200, some 0xE3A1, some 0xFF⟩) = true := by decide

/-- A1. -/
theorem test_ldNn : after 0x6F42 base (fun t => t.getV 0xF == 0x42) = true := by decide

/-- A2: it wraps and writes no carry. -/
theorem test_addNn : after 0x7AFF ((base.setV 0xA 1).setV 0xF 5) (fun t => t.getV 0xA == 0 && t.getV 0xF == 5) = true := by
  decide

/-- A4. -/
theorem test_ldVy : after 0x8120 ((base.setV 1 3).setV 2 0xAB) (fun t => t.getV 1 == 0xAB) = true := by decide

/-- A5. -/
theorem test_orVy : after 0x8121 (((base.setV 1 0xF0).setV 2 0x0F).setV 0xF 7) (fun t =>
    t.getV 1 == 0xFF && t.getV 0xF == 7) = true := by decide

/-- A6. -/
theorem test_andVy : after 0x8122 (((base.setV 1 0xF0).setV 2 0x0F).setV 0xF 7) (fun t =>
    t.getV 1 == 0x00 && t.getV 0xF == 7) = true := by decide

/-- A7. -/
theorem test_xorVy : after 0x8123 (((base.setV 1 0xFF).setV 2 0x0F).setV 0xF 7) (fun t =>
    t.getV 1 == 0xF0 && t.getV 0xF == 7) = true := by decide

/-- A9: x = y. -/
theorem test_addVy : after 0x8114 (base.setV 1 0x81) (fun t => t.getV 1 == 2 && t.getV 0xF == 1) = true := by decide

/-- A10: y = F. -/
theorem test_addVy_flag_source : after 0x81F4 ((base.setV 1 0x10).setV 0xF 0xF0) (fun t =>
    t.getV 1 == 0 && t.getV 0xF == 1) = true := by decide

/-- A11 and S2b. -/
theorem test_subVy : (after 0x8125 (base.setV 2 1) (fun t => t.getV 1 == 0xFF && t.getV 0xF == 0) &&
    after 0x8015 ((base.setV 0 7).setV 1 7) (fun t => t.getV 0 == 0 && t.getV 0xF == 1)) = true := by decide

/-- A12, A14. -/
theorem test_subnVy : (after 0x8127 ((base.setV 1 7).setV 2 5) (fun t => t.getV 1 == 0xFE && t.getV 0xF == 0) &&
    after 0x8127 ((base.setV 1 5).setV 2 7) (fun t => t.getV 1 == 2 && t.getV 0xF == 1)) = true := by decide

/-- A15. -/
theorem test_shr : after 0x8126 ((base.setV 1 1).setV 2 0x55) (fun t =>
    t.getV 1 == 0 && t.getV 0xF == 1 && t.getV 2 == 0x55) = true := by decide

/-- A17, A18. -/
theorem test_shl : (after 0x812E (base.setV 1 0x7F) (fun t => t.getV 1 == 0xFE && t.getV 0xF == 0) &&
    after 0x812E (base.setV 1 0x80) (fun t => t.getV 1 == 0 && t.getV 0xF == 1)) = true := by decide

/-- A22 to A26: the three columns for x = F. -/
theorem test_vf_candidates :
    flagOpFlag .add 0xC8 0x64 = 1 ∧ flagOpResult .add 0xC8 0x64 = 0x2C ∧ flagOpLiteral .add 0xC8 0x64 = 1 ∧
    flagOpFlag .sub 5 7 = 0 ∧ flagOpResult .sub 5 7 = 0xFE ∧ flagOpLiteral .sub 5 7 = 0 ∧
    flagOpFlag .subn 5 7 = 1 ∧ flagOpResult .subn 5 7 = 2 ∧ flagOpLiteral .subn 5 7 = 1 ∧
    flagOpFlag .shr 5 0 = 1 ∧ flagOpResult .shr 5 0 = 2 ∧ flagOpLiteral .shr 5 0 = 0 ∧
    flagOpFlag .shl 0x81 0 = 1 ∧ flagOpResult .shl 0x81 0 = 2 ∧ flagOpLiteral .shl 0x81 0 = 2 := by decide

/-- M1. -/
theorem test_ldI : after 0xA123 base (fun t => t.I == 0x0123) = true := by decide

/-- F10: the sum is not masked. -/
theorem test_jpV0 : after 0xBF01 (base.setV 0 0xFF) (fun t => t.pc == 0x1000) = true := by decide

/-- A19. -/
theorem test_rnd : after 0xC30F (ready [] 0xB7) (fun t => t.getV 3 == 0x07) = true := by decide

/-- D5: glyph A clipped at the right and bottom edges. -/
theorem test_drw : after 0xD125 ({ base with I := 0x032 }.setV 1 62 |>.setV 2 30) (fun t =>
    t.FB.get 30 62 == .on && t.FB.get 30 63 == .on && t.FB.get 31 62 == .on && t.FB.get 31 63 == .off &&
    t.FB.get 30 0 == .off && t.FB.get 0 62 == .off && t.getV 0xF == 0) = true := by decide

/-- D8. -/
theorem test_drw_range : after 0xD015 ({ base with I := 0xFFE }.setV 1 30 |>.setV 0xF 9) (fun t =>
    t.halted == some ⟨.memRangeData, 0x200, some 0xD015, some 0x1000⟩ && t.getV 0xF == 9) = true := by decide

/-- T1. -/
theorem test_ldVxDt : after 0xF307 { base with DT := 0x3C } (fun t => t.getV 3 == 0x3C && t.DT == 0x3C) = true := by decide

/-- T2, with another value. -/
theorem test_ldDtVx : after 0xF015 (base.setV 0 5) (fun t => t.DT == 5 && t.ST == 0) = true := by decide

/-- T3. -/
theorem test_ldStVx : after 0xF018 (base.setV 0 2) (fun t => t.ST == 2 && t.DT == 0) = true := by decide

/-- M3: it wraps at 16 bits. -/
theorem test_addI : after 0xF21E ({ base with I := 0xFFFF }.setV 2 2) (fun t => t.I == 1) = true := by decide

/-- T4. -/
theorem test_ldVxK : after 0xF50A (ready [0xF, 0xA] 0) (fun t => t.getV 5 == 0x0A && t.pc == 0x202) = true := by decide

/-- T6: no key, so the instruction is executed again. -/
theorem test_ldVxK_waits : after 0xF50A (base.setV 5 0x44) (fun t => t.getV 5 == 0x44 && t.pc == 0x200) = true := by decide

/-- M4, M6: no mask. -/
theorem test_ldF : (after 0xF229 (base.setV 2 0xF) (fun t => t.I == 0x04B) &&
    after 0xF229 (base.setV 2 0xFF) (fun t => t.I == 0x4FB)) = true := by decide

/-- S6. -/
theorem test_ldB : after 0xF233 ({ base with I := 0x300 }.setV 2 234) (fun t =>
    t.M.read 0x300 == 2 && t.M.read 0x301 == 3 && t.M.read 0x302 == 4 && t.I == 0x300) = true := by decide

/-- M12. -/
theorem test_ldB_range : after 0xF233 { base with I := 0x1005 } (fun t =>
    t.halted == some ⟨.memRangeData, 0x200, some 0xF233, some 0x1005⟩) = true := by decide

/-- M13. -/
theorem test_ldMemVx : after 0xFF55 ({ base with I := 0xFF0 }.setV 0 0xAA |>.setV 0xF 0xBB) (fun t =>
    t.M.read 0xFF0 == 0xAA && t.M.read 0xFFF == 0xBB && t.halted == none && t.I == 0xFF0) = true := by decide

/-- M14. -/
theorem test_ldMemVx_range : after 0xFF55 { base with I := 0xFF1 } (fun t =>
    t.halted == some ⟨.memRangeData, 0x200, some 0xFF55, some 0x1000⟩) = true := by decide

/-- M17. -/
theorem test_ldVxMem : after 0xF165 ({ base with I := 0x400, M := [(0x400, 1), (0x401, 2), (0x402, 3)] }.setV 2 0x99) (fun t =>
    t.getV 0 == 1 && t.getV 1 == 2 && t.getV 2 == 0x99 && t.I == 0x400) = true := by decide

/-- T7, T8. -/
theorem test_tick : tickDown 1 = 0 ∧ tickDown 0 = 0 ∧ tickDown 3 = 2 := by decide

/-- The reset state alone runs the instruction stored at its pc, whatever its free inputs are. -/
theorem test_withFetchWord_runs :
    ∃ t, step (State.reset.withFetchWord 16 0x6A01) = .next t ∧ t.getV 0xA = 0x01 ∧ t.pc = 0x202 :=
  ⟨_, rfl, rfl, rfl⟩

/-! ## Witnesses: states and operands that meet the hypotheses of each obligation, a clause at a time -/

/-- The reset state at another pc. -/
def atPc (pc : Word) : State := { State.reset with pc := pc }

/-- A state that a fault has halted. -/
def haltedState : State := State.reset.raiseFetch .memRangeFetch

/-- A jump to itself at 0x200 (70_reset_and_hazards.md R352). -/
def parkedState : State := State.reset.withFetchWord 16 0x1200

/-- I = 0xFF0: the highest address at which sixteen bytes fit. -/
def lastBlock : State := { State.reset with I := 0xFF0 }

theorem reset_running : Running State.reset := rfl

theorem reset_fetchable : Fetchable State.reset := ⟨by decide, by decide⟩

theorem parked_inv : Inv parkedState := ⟨by decide, fun e he => by cases he⟩

theorem witness_EncodeOfDecodeIsTheWord : decode 0x9FF1 = .ok (.sneVy 0xF 0xF 1) := by decide

theorem witness_StepRunsTheDecodedInstruction :
    (Running (atPc 0x200) ∧ Fetchable (atPc 0x200) ∧
      decode ((atPc 0x200).withFetchWord 16 0x6A01).wordAtPc = .ok (.ldNn 0xA 1)) ∧
    Running ((atPc 0xFFE).withFetchWord 16 0x6A01) ∧ Fetchable ((atPc 0xFFE).withFetchWord 16 0x6A01) ∧
      decode ((atPc 0xFFE).withFetchWord 16 0x6A01).wordAtPc = .ok (.ldNn 0xA 1) :=
  ⟨⟨rfl, ⟨by decide, by decide⟩, by decide⟩, rfl, ⟨by decide, by decide⟩, by decide⟩

theorem witness_UnrecognizedWordIsReportedAndSkipped :
    Running State.reset ∧ Fetchable State.reset ∧ unrecognizedWord State.reset.wordAtPc = true :=
  ⟨rfl, reset_fetchable, by decide⟩

theorem witness_FetchBelowRomHalts : Running (atPc 0x1FF) ∧ (atPc 0x1FF).pc.toNat < 0x200 := ⟨rfl, by decide⟩

theorem witness_FetchBeyondMemoryHalts : Running (atPc 0xFFF) ∧ 0xFFF < (atPc 0xFFF).pc.toNat + 1 := ⟨rfl, by decide⟩

theorem witness_FetchBelowRomFollowsItsParameter :
    (atPc 0x1FF).pc.toNat < 0x200 ∧ (atPc 0xFFE).pc.toNat + 1 ≤ 0xFFF ∧ 0x200 ≤ (atPc 0x200).pc.toNat := by decide

theorem witness_HaltedEngineHasNoStep : haltedState.halted = some ⟨.memRangeFetch, 0x200, none, none⟩ := by decide

theorem witness_RunningEngineAlwaysSteps : Running State.reset := rfl

theorem witness_RomLoadCopiesTheImage :
    State.reset.M.wf ∧ (List.replicate 3584 (0 : Byte)).length ≤ 3584 ∧ 0 < (List.replicate 3584 (0 : Byte)).length ∧
    3584 < (List.replicate 3585 (0 : Byte)).length := by
  simp only [List.length_replicate]; decide

theorem witness_LoadedResetStateIsALaunchState : (List.replicate 3584 (0 : Byte)).length ≤ 3584 :=
  (List.length_replicate (n := 3584)).le

theorem witness_StepKeepsTheInvariant :
    Inv parkedState ∧ ∃ t, step parkedState = .next t := ⟨parked_inv, _, rfl⟩

theorem witness_HostActionsKeepTheInvariant :
    Inv parkedState ∧ ∃ t, parkedState.loadRom [0x6A, 0x01] = some t := ⟨parked_inv, _, rfl⟩

/-- Next states with and without an event, one of them by each event of R302 that a handler has. -/
theorem witness_InstructionsWriteOnlyTheirParts :
    (∃ t, exec (.ldNn 3 7) State.reset = .next t ∧ t.log = []) ∧
    (∃ t, exec .ret State.reset = .next t ∧ t.log.map (·.code) = [.stackUnderflow]) ∧
    (∃ t, exec (.call 0) { State.reset with SP := some 15 } = .next t ∧ t.log.map (·.code) = [.stackOverflow]) ∧
    (∃ t, exec (.ldB 0) { State.reset with I := 0xFFE } = .next t ∧ t.log.map (·.code) = [.memRangeData]) ∧
    (∃ t, exec (.skp 0) (State.reset.setV 0 16) = .next t ∧ t.log.map (·.code) = [.keyRange]) :=
  ⟨⟨_, rfl, rfl⟩, ⟨_, rfl, rfl⟩, ⟨_, rfl, rfl⟩, ⟨_, rfl, rfl⟩, ⟨_, rfl, rfl⟩⟩

theorem witness_InstructionsRaiseOnlyTheirEvent :
    (∃ t, exec (.ldNn 3 7) State.reset = .next t ∧ t.log = State.reset.log) ∧
    (∃ t, exec (.ldVxMem 15) { State.reset with I := 0xFF1 } = .next t ∧ t.log.map (·.code) = [.memRangeData]) :=
  ⟨⟨_, rfl, rfl⟩, ⟨_, rfl, rfl⟩⟩

theorem witness_EventsHaveNoPartialEffect :
    (∃ t, exec (.ldMemVx 15) { State.reset with I := 0xFF1 } = .next t ∧ t.log ≠ []) ∧
    Running (atPc 0xFFF) ∧ ¬ Fetchable (atPc 0xFFF) ∧ ∃ t, step (atPc 0xFFF) = .next t :=
  ⟨⟨_, rfl, by decide⟩, rfl, fun h => absurd h.2 (by decide), _, rfl⟩

theorem witness_StepAppendsAtMostOneEvent :
    (∃ t, step State.reset = .next t ∧ t.log ≠ []) ∧ ∃ t, step parkedState = .next t ∧ t.log = [] :=
  ⟨⟨_, rfl, by decide⟩, _, rfl, rfl⟩

theorem witness_ParkedStateStaysParked : Parked parkedState :=
  ⟨rfl, ⟨by decide, by decide⟩, 0x200, by decide, by decide⟩

theorem witness_StoredWordIsFetched :
    lastBlock.M.wf ∧ lastBlock.I.toNat + (15 : Reg).val ≤ 0xFFF ∧ 14 + 1 ≤ (15 : Reg).val ∧
    (0xFFE : Word).toNat = lastBlock.I.toNat + 14 ∧ 0x200 ≤ (0xFFE : Word).toNat := by decide

theorem witness_CallThenReturnComesBack :
    spToInt State.reset.SP < 15 ∧ spToInt ({ State.reset with SP := some 14 } : State).SP < 15 := by decide

theorem witness_DrawingTwiceRestoresTheScreen :
    (0 : Reg) ≠ vF ∧ (1 : Reg) ≠ vF ∧ lastBlock.drawBad 1 15 = none ∧ lastBlock.drawBad 1 0 = none := by decide

theorem witness_StoreThenLoadRestoresRegisters :
    lastBlock.M.wf ∧ lastBlock.I.toNat + (15 : Reg).val ≤ 0xFFF := by decide

theorem witness_OnlyKeyInstructionsReadTheKeypad : readsKeys (.rnd 1 2) = false := rfl

theorem witness_OnlyRndTakesTheRandomByte : readsRnd (.ldVxK 1) = false := rfl

/-- D7: two bytes fit below 0x1000, and the third row's byte is not read. -/
theorem witness_DrwTogglesTheSpritesPixels :
    ({ State.reset with I := 0xFFE }.setV 1 31 : State).drawBad 1 5 = none ∧
    ({ State.reset with I := 0xFFE }.setV 1 30 : State).drawBad 1 5 ≠ none := by decide

/-- D8 at its boundary: k = 2, so 0xFFE + k = 0x1000; and n = 0, for which nothing is read. -/
theorem witness_DrwOutOfRangeFaultsWithoutEffect :
    (5 : Nibble) ≠ 0 ∧ ({ State.reset with I := 0xFFE }.setV 1 30 : State).drawBad 1 5 = some 0x1000 ∧
    ({ State.reset with I := 0xFFFF } : State).drawBad 1 0 = none := by decide

theorem witness_RetPopsOrReports :
    spToInt (some 15) = ((15 : Fin 16).val : Int) ∧ spToInt (some 0) = ((0 : Fin 16).val : Int) ∧
    spToInt State.reset.SP = -1 := by decide

theorem witness_CallPushesOrReports :
    spToInt State.reset.SP < 15 ∧ spToInt (some 14) < 15 ∧ spToInt (some 15) = 15 := by decide

/-- A target below 0x200, 0xFFF, and the two sums at their bounds. -/
theorem witness_JumpsWriteThePc :
    (0x1FF : Addr12).toNat < 0x200 ∧ (0xFFF : Addr12).toNat = 0xFFF ∧
    ((State.reset.setV 0 0xFF).getV 0).toNat + (0x100 : Addr12).toNat < 0x200 ∧
    0xFFE < ((State.reset.setV 0 1).getV 0).toNat + (0xFFE : Addr12).toNat := by decide

theorem witness_SkipsMoveOnlyThePc :
    isSkip (.skp 0) = true ∧ (∃ t, exec (.skp 0) State.reset = .next t ∧ t.pc = 0x200) ∧
    ∃ t, exec (.sknp 0) State.reset = .next t ∧ t.pc = 0x202 := ⟨rfl, ⟨_, rfl, rfl⟩, _, rfl, rfl⟩

theorem witness_SkipsTestTheKeySnapshot :
    ((State.reset.setV 3 15).getV 3).toNat = (15 : Fin 16).val ∧ 15 < ((State.reset.setV 3 16).getV 3).toNat := by decide

theorem witness_FlagInstructions : (0 : Reg) ≠ vF ∧ (15 : Reg) = vF := by decide

theorem witness_BcdStoresTheThreeDigits :
    State.reset.M.wf ∧ ({ State.reset with I := 0xFFD } : State).I.toNat + 2 ≤ 0xFFF ∧
    0xFFF < ({ State.reset with I := 0xFFE } : State).I.toNat + 2 := by decide

theorem witness_RegistersAreStoredFromI :
    lastBlock.M.wf ∧ lastBlock.I.toNat + (15 : Reg).val ≤ 0xFFF ∧
    0xFFF < ({ State.reset with I := 0xFF1 } : State).I.toNat + (15 : Reg).val := by decide

theorem witness_RegistersAreLoadedFromI :
    lastBlock.I.toNat + (15 : Reg).val ≤ 0xFFF ∧
    0xFFF < ({ State.reset with I := 0xFF1 } : State).I.toNat + (15 : Reg).val := by decide

/-- Keys F alone, 0 and F together, and none. -/
theorem witness_KeyWaitLoadsTheLowestKeyOrRewinds :
    ((input [15] 0).keys[15] = true ∧ ∀ j : Fin 16, j < 15 → (input [15] 0).keys[j.val] = false) ∧
    ((input [0, 15] 0).keys[0] = true ∧ ∀ j : Fin 16, j < 0 → (input [0, 15] 0).keys[j.val] = false) ∧
    ∀ j : Fin 16, State.reset.K[j.val] = false := by decide

end Sys2Proof.Tests
end

section
/-! SUPPORT. The frame rules of the single updates, and how frames compose (10_state.md R36). -/

namespace Sys2Proof.Machine.ChangesOnly

variable (s : State) {ps : List Part}

theorem setI (w : Word) (h : Part.index ∈ ps) : ChangesOnly ps s (s.setI w) := by simp [ChangesOnly, h]

theorem setPc (w : Word) (h : Part.pc ∈ ps) : ChangesOnly ps s (s.setPc w) := by simp [ChangesOnly, h]

theorem skipIf (c : Bool) (h : Part.pc ∈ ps) : ChangesOnly ps s (s.skipIf c) := by simp [ChangesOnly, h]

theorem setDT (b : Byte) (h : Part.delay ∈ ps) : ChangesOnly ps s (s.setDT b) := by simp [ChangesOnly, h]

theorem setST (b : Byte) (h : Part.sound ∈ ps) : ChangesOnly ps s (s.setST b) := by simp [ChangesOnly, h]

theorem setM (m : Memory) (h : Part.memory ∈ ps) : ChangesOnly ps s (s.setM m) := by simp [ChangesOnly, h]

theorem setFB (fb : Framebuffer) (h : Part.screen ∈ ps) : ChangesOnly ps s (s.setFB fb) := by simp [ChangesOnly, h]

/-- A return's move of pc and the stack pointer (10_state.md R27). -/
theorem pcSp (w : Word) (sp : Option (Fin 16)) (hp : Part.pc ∈ ps) (hs : Part.sp ∈ ps) :
    ChangesOnly ps s { s with pc := w, SP := sp } := ⟨fun _ _ => rfl, by simp [hp, hs]⟩

theorem push (v : Word) (hs : Part.sp ∈ ps) (he : Part.entries ∈ ps) : ChangesOnly ps s (s.push v) := by
  unfold State.push
  split
  · simp [ChangesOnly]
  · exact ⟨fun _ _ => rfl, by simp [hs, he]⟩

/-- A load of the bytes `bs` into V0 and the registers after it reaches none above V[x], where there are `x + 1` bytes. -/
theorem setRegs {x : Reg} {bs : List Byte} (hl : bs.length = x.val + 1) (h : ∀ r ≤ x, Part.reg r ∈ ps) :
    ChangesOnly ps s { s with V := setRegs s.V 0 bs } := by
  refine ⟨fun r hr => ?_, by simp⟩
  have hx : ¬ r.val ≤ x.val := fun hle => hr (h r hle)
  exact (getElem_setRegs bs s.V 0 r).trans (if_neg (by omega))

/-- What two updates in turn leave alone, their composition leaves alone. -/
theorem trans {s t u : State} (hst : ChangesOnly ps s t) (htu : ChangesOnly ps t u) : ChangesOnly ps s u := by
  obtain ⟨v, i, pc, e, sp, d, so, k, fb, m, ev, hi⟩ := hst
  obtain ⟨v', i', pc', e', sp', d', so', k', fb', m', ev', hi'⟩ := htu
  refine ⟨fun r h => (v' r h).trans (v r h), fun h => (i' h).trans (i h), fun h => (pc' h).trans (pc h),
    fun h => (e' h).trans (e h), fun h => (sp' h).trans (sp h), fun h => (d' h).trans (d h),
    fun h => (so' h).trans (so h), fun h => (k' h).trans (k h), fun h => (fb' h).trans (fb h),
    fun h a => (m' h a).trans (m h a), fun h => ?_, fun h => ?_⟩
  · exact ⟨(ev' h).1.trans (ev h).1, (ev' h).2.trans (ev h).2⟩
  · exact ⟨(hi' h).1.trans (hi h).1, (hi' h).2.1.trans (hi h).2.1, (hi' h).2.2.trans (hi h).2.2⟩

/-! ## The operations that can raise an event -/

theorem storeAtI (i : Instr) (bs : List Byte) (hm : Part.memory ∈ ps) (he : Part.events ∈ ps) :
    ChangesOnly ps s (s.storeAtI i bs) := by
  unfold State.storeAtI
  split
  · exact .raise s _ _ _ he
  · exact .setM s _ hm

theorem skipOnKey (i : Instr) (x : Reg) (pressed : Bool) (hp : Part.pc ∈ ps) (he : Part.events ∈ ps) :
    ChangesOnly ps s (s.skipOnKey i x pressed) := by
  unfold State.skipOnKey
  split
  · exact .skipIf s _ hp
  · exact .raise s _ _ _ he

end Sys2Proof.Machine.ChangesOnly

/-! SUPPORT. Every meaning answers a next state, and that state differs from the start state only in the parts listed for
the instruction. First the meanings that branch, each with its branches; then `exec`. -/

namespace Sys2Proof.Machine

/-- The outcome is a next state in which only the listed parts have changed. -/
def NextChangesOnly (ps : List Part) (s : State) (o : Host.Outcome State Fault Refusal) : Prop :=
  ∃ t, o = .next t ∧ ChangesOnly ps s t

theorem execRet_changesOnly (s : State) : NextChangesOnly [.pc, .sp, .events] s (execRet s) := by
  unfold execRet
  split
  · exact ⟨_, rfl, .raise s _ _ _ (by simp)⟩
  · exact ⟨_, rfl, .pcSp s _ _ (by simp) (by simp)⟩

theorem execCall_changesOnly (nnn : Addr12) (s : State) :
    NextChangesOnly [.pc, .sp, .entries, .events] s (execCall nnn s) := by
  unfold execCall
  split
  · exact ⟨_, rfl, .raise s _ _ _ (by simp)⟩
  · exact ⟨_, rfl, (ChangesOnly.push s _ (by simp) (by simp)).trans (.setPc _ _ (by simp))⟩

theorem execDrw_changesOnly (x y : Reg) (n : Nibble) (s : State) :
    NextChangesOnly [.reg vF, .screen, .events] s (execDrw x y n s) := by
  unfold execDrw
  split
  · exact ⟨_, rfl, .raise s _ _ _ (by simp)⟩
  · exact ⟨_, rfl, (ChangesOnly.setFB s _ (by simp)).trans (.setV _ _ _ (by simp))⟩

theorem execLdVxK_changesOnly (x : Reg) (s : State) : NextChangesOnly [.reg x, .pc] s (execLdVxK x s) := by
  refine ⟨_, rfl, ?_⟩
  split
  · exact .setV s _ _ (by simp)
  · exact .setPc s _ (by simp)

theorem execLdVxMem_changesOnly (x : Reg) (s : State) :
    NextChangesOnly (.events :: regParts x) s (execLdVxMem x s) := by
  unfold execLdVxMem
  split
  · exact ⟨_, rfl, .raise s _ _ _ (by simp)⟩
  · exact ⟨_, rfl, .setRegs s (Memory.loadBytes_length _ _ _) fun r hr => by simp [mem_regParts, hr]⟩

/-- The "written by" column of 10_state.md R36 for every instruction, one kind of update at a time. -/
theorem exec_changesOnly (i : Instr) (s : State) : NextChangesOnly (writes i) s (exec i s) := by
  cases i with
  | cls => exact ⟨_, rfl, .setFB s _ (by simp [writes])⟩
  | ret => exact execRet_changesOnly s
  | call nnn => exact execCall_changesOnly nnn s
  | drw x y n => exact execDrw_changesOnly x y n s
  | ldVxK x => exact execLdVxK_changesOnly x s
  | ldVxMem x => exact execLdVxMem_changesOnly x s
  | jp | jpV0 => exact ⟨_, rfl, .setPc s _ (by simp [writes])⟩
  | seNn | sneNn | seVy | sneVy => exact ⟨_, rfl, .skipIf s _ (by simp [writes])⟩
  | skp | sknp => exact ⟨_, rfl, .skipOnKey s _ _ _ (by simp [writes]) (by simp [writes])⟩
  | ldNn | addNn | ldVy | orVy | andVy | xorVy | rnd | ldVxDt => exact ⟨_, rfl, .setV s _ _ (by simp [writes])⟩
  | addVy | subVy | subnVy | shr | shl => exact ⟨_, rfl, .writeFlagOp s _ _ _ _⟩
  | ldI | addI | ldF => exact ⟨_, rfl, .setI s _ (by simp [writes])⟩
  | ldDtVx => exact ⟨_, rfl, .setDT s _ (by simp [writes])⟩
  | ldStVx => exact ⟨_, rfl, .setST s _ (by simp [writes])⟩
  | ldB | ldMemVx => exact ⟨_, rfl, .storeAtI s _ _ (by simp [writes]) (by simp [writes])⟩

/-- Settles O21: the one next state of `exec` is the one whose frame `exec_changesOnly` gives. -/
theorem instructionsWriteOnlyTheirParts : Obligations.InstructionsWriteOnlyTheirParts := by
  intro i s t ht
  obtain ⟨t', ht', hc⟩ := exec_changesOnly i s
  obtain rfl : t' = t := by simpa [ht'] using ht
  exact hc

end Sys2Proof.Machine
end

section
/-! SUPPORT. The sound timer, the keypad snapshot and the random byte are read by few instructions (10_state.md R29, R30,
44_alu.md R193). `State.override` gives any of the three another value; `exec_override` says that every meaning commutes
with it, as long as no part the instruction reads is given one. -/

namespace Sys2Proof.Machine

/-- The state with other values for ST, K and the cycle's random byte; `none` leaves a part as it is. -/
def State.override (s : State) (st : Option Byte) (keys : Option (Vector Bool 16)) (rnd : Option Byte) : State :=
  { s with ST := st.getD s.ST, K := keys.getD s.K, rnd := rnd.getD s.rnd }

section
variable (s : State) (st : Option Byte) (keys : Option (Vector Bool 16)) (rnd : Option Byte)

/-! ## The operations that branch -/

theorem State.writeFlagOp_override (op : FlagOp) (x : Reg) (a b : Byte) :
    (s.override st keys rnd).writeFlagOp op x a b = (s.writeFlagOp op x a b).override st keys rnd := by
  unfold State.writeFlagOp
  split <;> rfl

theorem State.push_override (v : Word) : (s.override st keys rnd).push v = (s.push v).override st keys rnd := by
  have hsp : (s.override st keys rnd).SP = s.SP := rfl
  rw [push, push, hsp]
  split <;> rfl

theorem State.storeAtI_override (i : Instr) (bs : List Byte) :
    (s.override st keys rnd).storeAtI i bs = (s.storeAtI i bs).override st keys rnd := by
  have ha : (s.override st keys rnd).effAddr 0 = s.effAddr 0 := rfl
  rw [storeAtI, storeAtI, ha]
  split <;> rfl

/-- A skip on a key reads the snapshot, which stays. -/
theorem State.skipOnKey_override (i : Instr) (x : Reg) (pressed : Bool) :
    (s.override st none rnd).skipOnKey i x pressed = (s.skipOnKey i x pressed).override st none rnd := by
  have hx : (s.override st none rnd).getV x = s.getV x := rfl
  have hk : (s.override st none rnd).K = s.K := rfl
  simp only [skipOnKey, hx, hk]
  split <;> rfl

/-! ## The meanings that branch -/

theorem execRet_override :
    execRet (s.override st keys rnd) = mapNext (·.override st keys rnd) (execRet s) := by
  have hsp : (s.override st keys rnd).SP = s.SP := rfl
  rw [execRet, execRet, hsp]
  split <;> rfl

theorem execCall_override (nnn : Addr12) :
    execCall nnn (s.override st keys rnd) = mapNext (·.override st keys rnd) (execCall nnn s) := by
  have hsp : (s.override st keys rnd).SP = s.SP := rfl
  rw [execCall, execCall, hsp, State.push_override]
  split <;> rfl

theorem execDrw_override (x y : Reg) (n : Nibble) :
    execDrw x y n (s.override st keys rnd) = mapNext (·.override st keys rnd) (execDrw x y n s) := by
  have hbad : (s.override st keys rnd).drawBad y n = s.drawBad y n := rfl
  rw [execDrw, execDrw, hbad]
  split <;> rfl

theorem execLdVxMem_override (x : Reg) :
    execLdVxMem x (s.override st keys rnd) = mapNext (·.override st keys rnd) (execLdVxMem x s) := by
  have ha : (s.override st keys rnd).effAddr 0 = s.effAddr 0 := rfl
  rw [execLdVxMem, execLdVxMem, ha]
  split <;> rfl

/-- The key wait reads the snapshot, which stays. -/
theorem execLdVxK_override (x : Reg) :
    execLdVxK x (s.override st none rnd) = mapNext (·.override st none rnd) (execLdVxK x s) := by
  have hk : (s.override st none rnd).K = s.K := rfl
  rw [execLdVxK, execLdVxK, hk]
  split <;> rfl

/-- Every meaning commutes with other values for the parts it does not read; Fx18 overwrites ST. -/
theorem exec_override (i : Instr) (hk : readsKeys i = true → keys = none) (hr : readsRnd i = true → rnd = none) :
    exec i (s.override st keys rnd) =
      mapNext (·.override (if writesSound i then none else st) keys rnd) (exec i s) := by
  cases i with
  | ret => exact execRet_override s st keys rnd
  | call nnn => exact execCall_override s st keys rnd nnn
  | drw x y n => exact execDrw_override s st keys rnd x y n
  | ldVxMem x => exact execLdVxMem_override s st keys rnd x
  | addVy | subVy | subnVy | shr | shl => exact congrArg Host.Outcome.next (s.writeFlagOp_override st keys rnd _ _ _ _)
  | ldB | ldMemVx => exact congrArg Host.Outcome.next (s.storeAtI_override st keys rnd _ _)
  | skp | sknp =>
    obtain rfl := hk rfl
    exact congrArg Host.Outcome.next (s.skipOnKey_override st rnd _ _ _)
  | ldVxK x =>
    obtain rfl := hk rfl
    exact execLdVxK_override s st rnd x
  | rnd => obtain rfl := hr rfl; rfl
  | cls | jp | seNn | sneNn | seVy | ldNn | addNn | ldVy | orVy | andVy | xorVy | sneVy | ldI | jpV0 | ldVxDt | ldDtVx
  | ldStVx | addI | ldF => rfl

end

/-! The overrides the statements speak of, as record updates. -/

theorem State.override_none (s : State) : s.override none none none = s := rfl

theorem State.override_keys (s : State) (keys : Vector Bool 16) :
    s.override none (some keys) none = { s with K := keys } := rfl

theorem State.override_sound (s : State) (b : Byte) : s.override (some b) none none = { s with ST := b } := rfl

/-- Settles O30: `exec_override` with other keys alone. -/
theorem onlyKeyInstructionsReadTheKeypad : Obligations.OnlyKeyInstructionsReadTheKeypad := by
  intro i s keys hi
  have h := exec_override s none (some keys) none i (by simp [hi]) fun _ => rfl
  simpa only [ite_self, State.override_keys] using h

/-- Settles O31: `exec_override` with another ST alone, which Fx18 overwrites. -/
theorem noInstructionReadsTheSoundTimer : Obligations.NoInstructionReadsTheSoundTimer := by
  intro i s b
  have h := exec_override s (some b) none none i (fun _ => rfl) fun _ => rfl
  cases hw : writesSound i
  · simpa only [hw, Bool.false_eq_true, if_false, State.override_sound] using h
  · simpa only [hw, if_true, State.override_sound, State.override_none] using h

end Sys2Proof.Machine
end

section
/-! SUPPORT. The reset state (10_state.md R40 to R43, R49). -/

namespace Sys2Proof.Machine

/-- Settles O13: unlisted memory reads as the font below 80; the other values stand in `State.reset`. -/
theorem resetLeavesTheSpecsValues : Obligations.ResetLeavesTheSpecsValues :=
  ⟨rfl, rfl, rfl, rfl, fun _ ha => if_pos ha, rfl, rfl⟩

end Sys2Proof.Machine
end

section
/-! SUPPORT. The invariant: memory in its canonical form and events in their order (20_memory.md R51, R53;
60_exceptions.md R301, R315). First how each kind of update keeps it, then every meaning, then the step. -/

namespace Sys2Proof.Machine

/-! ## The invariant and the single updates -/

theorem eventsOrdered_of_running {s : State} (hr : Running s) :
    EventsOrdered s ↔ ∀ e ∈ s.log, e.code.isFault = false := by
  have hr' : s.halted = none := hr
  rw [EventsOrdered, hr']

theorem eventsOrdered_of_halted {s : State} {e : Event} (h : s.halted = some e) :
    EventsOrdered s ↔
      e.code.isFault = true ∧ ∃ before, s.log = before ++ [e] ∧ ∀ d ∈ before, d.code.isFault = false := by
  rw [EventsOrdered, h]

/-- The invariant speaks of `M`, `log` and `halted` alone. -/
theorem Inv.of_same {s t : State} (h : Inv s) (hm : t.M = s.M) (hl : t.log = s.log) (hh : t.halted = s.halted) :
    Inv t := by
  obtain ⟨hwf, hev⟩ := h
  refine ⟨hm ▸ hwf, ?_⟩
  rwa [EventsOrdered, hl, hh]

theorem Inv.setM {s : State} (h : Inv s) {m : Memory} (hm : m.wf) : Inv (s.setM m) := ⟨hm, h.2⟩

/-- An event of a running engine goes behind a log of reports; the engine stays running unless it is a fault. -/
theorem Inv.takeEvent {s : State} (h : Inv s) (hr : Running s) (e : Event) : Inv (s.takeEvent e) := by
  have hreports : ∀ d ∈ s.log, d.code.isFault = false := (eventsOrdered_of_running hr).1 h.2
  cases he : e.code.isFault with
  | true =>
    rw [s.takeEvent_fault he]
    exact ⟨h.1, (eventsOrdered_of_halted rfl).2 ⟨he, s.log, rfl, hreports⟩⟩
  | false =>
    rw [s.takeEvent_report he]
    refine ⟨h.1, (eventsOrdered_of_running (s := { s with log := s.log ++ [e] }) hr).2 fun d hd => ?_⟩
    rcases List.mem_append.1 hd with hd | hd
    · exact hreports d hd
    · rwa [List.mem_singleton.1 hd]

theorem Inv.raise {s : State} (h : Inv s) (hr : Running s) (c : EventCode) (w : Word) (info : Option Nat) :
    Inv (s.raise c w info) := h.takeEvent hr _

theorem Inv.hostActs {s : State} (h : Inv s) : Inv s.hostActs := h.of_same rfl rfl rfl

theorem Inv.afterFetch {s : State} (h : Inv s) (keys : Vector Bool 16) (rnd : Byte) : Inv (s.afterFetch keys rnd) :=
  h.of_same rfl rfl rfl

/-! ## The operations that branch -/

theorem Inv.writeFlagOp {s : State} (h : Inv s) (op : FlagOp) (x : Reg) (a b : Byte) :
    Inv (s.writeFlagOp op x a b) := by
  unfold State.writeFlagOp
  split
  · exact h.of_same rfl rfl rfl
  · exact h.of_same rfl rfl rfl

theorem Inv.push {s : State} (h : Inv s) (v : Word) : Inv (s.push v) := by
  unfold State.push
  split
  · exact h
  · exact h.of_same rfl rfl rfl

theorem Inv.skipOnKey {s : State} (h : Inv s) (hr : Running s) (i : Instr) (x : Reg) (pressed : Bool) :
    Inv (s.skipOnKey i x pressed) := by
  unfold State.skipOnKey
  split
  · exact h.of_same rfl rfl rfl
  · exact h.raise hr _ _ _

/-- The range check lets no store reach outside the address space (20_memory.md R51). -/
theorem Inv.storeAtI {s : State} (h : Inv s) (hr : Running s) (i : Instr) {bs : List Byte} (hne : bs ≠ []) :
    Inv (s.storeAtI i bs) := by
  by_cases hfit : s.I.toNat + bs.length ≤ memSize
  · rw [State.storeAtI_of_fits i hfit]
    exact h.setM (Memory.storeBytes_wf bs h.1 hfit)
  · rw [State.storeAtI_of_bad i hne (Nat.not_le.1 hfit)]
    exact h.raise hr _ _ _

theorem State.regsUpTo_ne_nil (s : State) (x : Reg) : s.regsUpTo x ≠ [] :=
  List.ne_nil_of_length_pos (by rw [regsUpTo_length]; omega)

/-! ## The meanings that branch -/

/-- The outcome is a next state that meets the invariant. -/
def NextInv (o : Host.Outcome State Fault Refusal) : Prop := ∃ t, o = .next t ∧ Inv t

section
variable {s : State} (h : Inv s) (hr : Running s)
include h

theorem execLdVxK_inv (x : Reg) : NextInv (execLdVxK x s) := by
  refine ⟨_, rfl, ?_⟩
  split
  · exact h.of_same rfl rfl rfl
  · exact h.of_same rfl rfl rfl

include hr

theorem execRet_inv : NextInv (execRet s) := by
  unfold execRet
  split
  · exact ⟨_, rfl, h.raise hr _ _ _⟩
  · exact ⟨_, rfl, h.of_same rfl rfl rfl⟩

theorem execCall_inv (nnn : Addr12) : NextInv (execCall nnn s) := by
  unfold execCall
  split
  · exact ⟨_, rfl, h.raise hr _ _ _⟩
  · exact ⟨_, rfl, (h.push s.pc).of_same rfl rfl rfl⟩

theorem execDrw_inv (x y : Reg) (n : Nibble) : NextInv (execDrw x y n s) := by
  unfold execDrw
  split
  · exact ⟨_, rfl, h.raise hr _ _ _⟩
  · exact ⟨_, rfl, h.of_same rfl rfl rfl⟩

theorem execLdVxMem_inv (x : Reg) : NextInv (execLdVxMem x s) := by
  unfold execLdVxMem
  split
  · exact ⟨_, rfl, h.raise hr _ _ _⟩
  · exact ⟨_, rfl, h.of_same rfl rfl rfl⟩

/-- Every meaning keeps the invariant on a running engine: it stores inside memory, takes one event, or touches neither
memory nor the log. -/
theorem exec_inv (i : Instr) : NextInv (exec i s) := by
  cases i with
  | ret => exact execRet_inv h hr
  | call nnn => exact execCall_inv h hr nnn
  | drw x y n => exact execDrw_inv h hr x y n
  | ldVxK x => exact execLdVxK_inv h x
  | ldVxMem x => exact execLdVxMem_inv h hr x
  | ldB => exact ⟨_, rfl, h.storeAtI hr _ (List.cons_ne_nil _ _)⟩
  | ldMemVx x => exact ⟨_, rfl, h.storeAtI hr _ (s.regsUpTo_ne_nil x)⟩
  | skp | sknp => exact ⟨_, rfl, h.skipOnKey hr _ _ _⟩
  | addVy | subVy | subnVy | shr | shl => exact ⟨_, rfl, h.writeFlagOp _ _ _ _⟩
  | cls | jp | seNn | sneNn | seVy | ldNn | addNn | ldVy | orVy | andVy | xorVy | sneVy | ldI | jpV0 | rnd | ldVxDt
  | ldDtVx | ldStVx | addI | ldF => exact ⟨_, rfl, h.of_same rfl rfl rfl⟩

end

/-! ## Reset and step -/

/-- Settles O18: memory lists nothing and the log is empty. -/
theorem resetMeetsTheInvariant : Obligations.ResetMeetsTheInvariant :=
  ⟨Memory.wf_nil, (eventsOrdered_of_running (s := State.reset) rfl).2 fun _ he => absurd he List.not_mem_nil⟩

/-- Settles O19: a step takes place on a running engine, whose log holds reports only, so the fetch fault, the
instruction or the unrecognized word adds at most one event behind them. -/
theorem stepKeepsTheInvariant : Obligations.StepKeepsTheInvariant := by
  intro s t h ht
  obtain ⟨hr, ⟨-, c, -, rfl⟩ | ⟨-, i, -, hexec⟩ | ⟨-, r, -, rfl⟩⟩ := step_cases ht
  · exact h.hostActs.takeEvent hr _
  · obtain ⟨t', ht', hinv⟩ := exec_inv (h.hostActs.afterFetch s.nextInput.keys s.nextInput.rnd) hr i
    obtain rfl : t' = t := by simpa [ht'] using hexec
    exact hinv
  · exact (h.hostActs.afterFetch _ _).raise hr _ _ _

end Sys2Proof.Machine
end

section
/-! SUPPORT. What a fetch reads: its parameter (20_memory.md R58), and a word that Fx55 stored (20_memory.md R60,
R68). -/

namespace Sys2Proof.Machine

theorem fetch_fault_of_lt {s : State} (h : s.pc.toNat < romBase) : fetch .fault s = .error .fetchReserved :=
  if_pos ⟨h, rfl⟩

theorem fetch_execute_of_le {s : State} (h : s.pc.toNat + 1 ≤ 0xFFF) : fetch .execute s = .ok s.wordAtPc := by
  rw [fetch, if_neg (by simp), if_neg (Nat.not_lt.2 h)]
  rfl

/-- From 0x200 up the parameter's test fails, whatever its value. -/
theorem fetch_policy_of_ge {s : State} (h : romBase ≤ s.pc.toNat) (p q : FetchPolicy) : fetch p s = fetch q s := by
  simp only [fetch, Nat.not_lt.2 h, false_and, if_false]

/-- Settles O10: the three lemmas above, a range of pc each. -/
theorem fetchBelowRomFollowsItsParameter : Obligations.FetchBelowRomFollowsItsParameter :=
  ⟨rfl, fun _ => ⟨fetch_fault_of_lt, fetch_execute_of_le, fun h => fetch_policy_of_ge h _ _⟩⟩

/-- Memory with V0 to V[x] stored from I on. -/
theorem State.read_storedRegs {s : State} {x : Reg} (hwf : s.M.wf) (hfit : s.I.toNat + x.val ≤ 0xFFF) {k : Nat}
    (hk : k ≤ x.val) :
    (s.M.storeBytes (s.effAddr 0) (s.regsUpTo x)).read (s.I.toNat + k) = s.getV ⟨k, by omega⟩ := by
  have hlen : (s.regsUpTo x).length = x.val + 1 := s.regsUpTo_length x
  have hbase : s.effAddr 0 = s.I.toNat := rfl
  rw [hbase, Memory.read_storeBytes _ hwf (by rw [hlen, memSize_eq]; omega), if_pos (by omega), Nat.add_sub_cancel_left,
    s.regsUpTo_getD hk]

theorem execLdMemVx_of_fits {s : State} {x : Reg} (hfit : s.I.toNat + x.val ≤ 0xFFF) :
    execLdMemVx x s = .next (s.setM (s.M.storeBytes (s.effAddr 0) (s.regsUpTo x))) := by
  rw [execLdMemVx, State.storeAtI_of_fits _ (by rw [s.regsUpTo_length, memSize_eq]; omega)]

/-- Settles O26: the fetch succeeds, and its two bytes are those of V[k] and V[k + 1]. -/
theorem storedWordIsFetched : Obligations.StoredWordIsFetched := by
  intro s x k hwf hfit hk
  refine ⟨_, execLdMemVx_of_fits hfit, fun p hp hrom => ?_⟩
  have hfetch : Fetchable { s.setM (s.M.storeBytes (s.effAddr 0) (s.regsUpTo x)) with pc := p } :=
    ⟨hrom, by rw [memSize_eq]; show p.toNat + 1 < 4096; omega⟩
  rw [fetch_of_fetchable hfetch, State.wordAtPc]
  simp only [State.setM_M, hp, Nat.add_assoc]
  rw [State.read_storedRegs hwf hfit (by omega), State.read_storedRegs hwf hfit hk]

end Sys2Proof.Machine
end

section
/-! SUPPORT. The decoder and the encoder are inverse to each other (30_encoding.md R81 to R89): an encoded word is read
back by its format, and a decoded word is put together again from its fields. -/

namespace Sys2Proof

/-! ## Decoding an encoded word -/

/-- Settles O1: the instructions by the format of their word and the sub-field their family branches on. -/
theorem decodeOfEncodeIsTheInstruction : Obligations.DecodeOfEncodeIsTheInstruction := by
  intro i
  cases i with
  | cls | ret => rfl
  | jp | call | ldI | jpV0 => rw [encode, decode, fieldF_formatNNN, fieldNNN_formatNNN]; rfl
  | seNn | sneNn | ldNn | addNn | rnd =>
    rw [encode, decode, fieldF_formatXNN, fieldX_formatXNN, fieldNN_formatXNN]; rfl
  | seVy | sneVy | drw =>
    rw [encode, decode, fieldF_formatXYN, fieldX_formatXYN, fieldY_formatXYN, fieldN_formatXYN]; rfl
  | ldVy | orVy | andVy | xorVy | addVy | subVy | subnVy | shr | shl =>
    rw [encode, decode_family8 (fieldF_formatXYN _ _ _ _), decode8, fieldX_formatXYN, fieldY_formatXYN,
      fieldN_formatXYN]
    rfl
  | skp | sknp =>
    rw [encode, formatX, decode_familyE (fieldF_formatXNN _ _ _), decodeE, fieldX_formatXNN, fieldNN_formatXNN]; rfl
  | ldVxDt | ldDtVx | ldStVx | addI | ldVxK | ldF | ldB | ldMemVx | ldVxMem =>
    rw [encode, formatX, decode_familyF (fieldF_formatXNN _ _ _), decodeF, fieldX_formatXNN, fieldNN_formatXNN]; rfl

/-! ## Encoding a decoded word -/

section
variable {w : Word} {f : Nibble} (hf : fieldF w = f)
include hf

theorem formatNNN_of_family : formatNNN f (fieldNNN w) = w := hf ▸ (eq_formatNNN w).symm

theorem formatXNN_of_family : formatXNN f (fieldX w) (fieldNN w) = w := hf ▸ (eq_formatXNN w).symm

theorem formatXYN_of_family : formatXYN f (fieldX w) (fieldY w) (fieldN w) = w := hf ▸ (eq_formatXYN w).symm

end

theorem encode_of_decode0 {w : Word} {i : Instr} (h : decode0 w = .ok i) : encode i = formatNNN 0x0 (fieldNNN w) := by
  unfold decode0 at h
  split_ifs at h with h1 h2
  · cases h; rw [h1]; rfl
  · cases h; rw [h2]; rfl

theorem encode_of_decode8 {w : Word} {i : Instr} (h : decode8 w = .ok i) :
    encode i = formatXYN 0x8 (fieldX w) (fieldY w) (fieldN w) := by
  simp only [decode8] at h
  split_ifs at h with hn hn hn hn hn hn hn hn hn
  all_goals cases h; rw [hn]; rfl

theorem encode_of_decodeE {w : Word} {i : Instr} (h : decodeE w = .ok i) :
    encode i = formatXNN 0xE (fieldX w) (fieldNN w) := by
  unfold decodeE at h
  split_ifs at h with hn hn
  all_goals cases h; rw [hn]; rfl

theorem encode_of_decodeF {w : Word} {i : Instr} (h : decodeF w = .ok i) :
    encode i = formatXNN 0xF (fieldX w) (fieldNN w) := by
  simp only [decodeF] at h
  split_ifs at h with hn hn hn hn hn hn hn hn hn
  all_goals cases h; rw [hn]; rfl

/-- Settles O2: family by family, the instruction's format holds the fields the decoder read (R85). -/
theorem encodeOfDecodeIsTheWord : Obligations.EncodeOfDecodeIsTheWord := by
  intro w i h
  rcases nibble_cases (fieldF w) with hf | hf | hf | hf | hf | hf | hf | hf | hf | hf | hf | hf | hf | hf | hf | hf
  · exact (encode_of_decode0 (decode_family0 hf ▸ h)).trans (formatNNN_of_family hf)
  · cases (decode_family1 hf).symm.trans h; exact formatNNN_of_family hf
  · cases (decode_family2 hf).symm.trans h; exact formatNNN_of_family hf
  · cases (decode_family3 hf).symm.trans h; exact formatXNN_of_family hf
  · cases (decode_family4 hf).symm.trans h; exact formatXNN_of_family hf
  · cases (decode_family5 hf).symm.trans h; exact formatXYN_of_family hf
  · cases (decode_family6 hf).symm.trans h; exact formatXNN_of_family hf
  · cases (decode_family7 hf).symm.trans h; exact formatXNN_of_family hf
  · exact (encode_of_decode8 (decode_family8 hf ▸ h)).trans (formatXYN_of_family hf)
  · cases (decode_family9 hf).symm.trans h; exact formatXYN_of_family hf
  · cases (decode_familyA hf).symm.trans h; exact formatNNN_of_family hf
  · cases (decode_familyB hf).symm.trans h; exact formatNNN_of_family hf
  · cases (decode_familyC hf).symm.trans h; exact formatXNN_of_family hf
  · cases (decode_familyD hf).symm.trans h; exact formatXYN_of_family hf
  · exact (encode_of_decodeE (decode_familyE hf ▸ h)).trans (formatXNN_of_family hf)
  · exact (encode_of_decodeF (decode_familyF hf ▸ h)).trans (formatXNN_of_family hf)

/-- Settles O5: eleven closed instances of the decoder. -/
theorem sampleWordsDecode : Obligations.SampleWordsDecode := by
  unfold Obligations.SampleWordsDecode
  decide

end Sys2Proof
end

section
/-! SUPPORT. The words that are instructions, seen three ways, family by family: the sub-fields the decoder branches on
(30_encoding.md R85 to R89), the unrecognized words (R92) and the rows of the opcode map (R91, R95). -/

namespace Sys2Proof

/-! ## The families and the sub-fields they branch on (R85 to R89) -/

/-- The bits of a word that name its instruction, given its family: family 0x0 branches on the whole residual, 0x8 on n,
0xE and 0xF on nn, every other family is one instruction (R85). -/
def familyMask (f : Nibble) : Word :=
  if f = 0x0#4 then 0xFFFF#16
  else if f = 0x8#4 then 0xF00F#16
  else if f = 0xE#4 ∨ f = 0xF#4 then 0xF0FF#16
  else 0xF000#16

theorem family_cases : ∀ f : Nibble,
    f = 0x0#4 ∨ f = 0x8#4 ∨ f = 0xE#4 ∨ f = 0xF#4 ∨ familyMask f = 0xF000#16 := by decide

/-- The residuals that are instructions of family 0x0 (R86). -/
def family0Codes : List Addr12 := [0x0E0, 0x0EE]

/-- The values of n that are instructions of family 0x8 (R87). -/
def family8Codes : List Nibble := [0x0, 0x1, 0x2, 0x3, 0x4, 0x5, 0x6, 0x7, 0xE]

/-- The values of nn that are instructions of family 0xE (R88). -/
def familyECodes : List Byte := [0x9E, 0xA1]

/-- The values of nn that are instructions of family 0xF (R89). -/
def familyFCodes : List Byte := [0x07, 0x0A, 0x15, 0x18, 0x1E, 0x29, 0x33, 0x55, 0x65]

/-! ## What the decoder rejects -/

theorem decode0_rejects_iff (w : Word) : (∃ r, decode0 w = .error r) ↔ fieldNNN w ∉ family0Codes := by
  simp only [decode0]
  split_ifs <;> simp [family0Codes, *]

theorem decode8_rejects_iff (w : Word) : (∃ r, decode8 w = .error r) ↔ fieldN w ∉ family8Codes := by
  simp only [decode8]
  split_ifs <;> simp [family8Codes, *]

theorem decodeE_rejects_iff (w : Word) : (∃ r, decodeE w = .error r) ↔ fieldNN w ∉ familyECodes := by
  simp only [decodeE]
  split_ifs <;> simp [familyECodes, *]

theorem decodeF_rejects_iff (w : Word) : (∃ r, decodeF w = .error r) ↔ fieldNN w ∉ familyFCodes := by
  simp only [decodeF]
  split_ifs <;> simp [familyFCodes, *]

theorem decode_of_wholeFamily {w : Word} (h : familyMask (fieldF w) = 0xF000#16) : ∃ i, decode w = .ok i := by
  rcases nibble_cases (fieldF w) with hf | hf | hf | hf | hf | hf | hf | hf | hf | hf | hf | hf | hf | hf | hf | hf
  · exact absurd (hf ▸ h) (by decide)
  · exact ⟨_, decode_family1 hf⟩
  · exact ⟨_, decode_family2 hf⟩
  · exact ⟨_, decode_family3 hf⟩
  · exact ⟨_, decode_family4 hf⟩
  · exact ⟨_, decode_family5 hf⟩
  · exact ⟨_, decode_family6 hf⟩
  · exact ⟨_, decode_family7 hf⟩
  · exact absurd (hf ▸ h) (by decide)
  · exact ⟨_, decode_family9 hf⟩
  · exact ⟨_, decode_familyA hf⟩
  · exact ⟨_, decode_familyB hf⟩
  · exact ⟨_, decode_familyC hf⟩
  · exact ⟨_, decode_familyD hf⟩
  · exact absurd (hf ▸ h) (by decide)
  · exact absurd (hf ▸ h) (by decide)

/-! ## What R92 lists -/

theorem div_of_family {w : Word} {f : Nibble} (hf : fieldF w = f) : w.toNat / 4096 = f.toNat := by
  rw [← hf, toNat_fieldF]

theorem unrecognizedWord_family0 {w : Word} (hf : fieldF w = 0x0#4) :
    unrecognizedWord w = true ↔ fieldNNN w ∉ family0Codes := by
  have h : w.toNat / 4096 = 0 := div_of_family hf
  have hw : (fieldNNN w).toNat = w.toNat := by rw [toNat_fieldNNN]; omega
  rw [unrecognizedWord, h]
  simp [family0Codes, ← BitVec.toNat_inj, hw]

theorem unrecognizedWord_family8 {w : Word} (hf : fieldF w = 0x8#4) :
    unrecognizedWord w = true ↔ fieldN w ∉ family8Codes := by
  have codes : ∀ n : Nibble, [0x8, 0x9, 0xA, 0xB, 0xC, 0xD, 0xF].contains n.toNat = true ↔ n ∉ family8Codes := by
    decide
  rw [unrecognizedWord, div_of_family hf, ← codes, toNat_fieldN]
  rfl

theorem unrecognizedWord_familyE {w : Word} (hf : fieldF w = 0xE#4) :
    unrecognizedWord w = true ↔ fieldNN w ∉ familyECodes := by
  rw [unrecognizedWord, div_of_family hf, ← toNat_fieldNN]
  simp [familyECodes, ← BitVec.toNat_inj]

theorem unrecognizedWord_familyF {w : Word} (hf : fieldF w = 0xF#4) :
    unrecognizedWord w = true ↔ fieldNN w ∉ familyFCodes := by
  rw [unrecognizedWord, div_of_family hf, ← toNat_fieldNN]
  simp [familyFCodes, ← BitVec.toNat_inj]

theorem unrecognizedWord_of_wholeFamily {w : Word} (h : familyMask (fieldF w) = 0xF000#16) :
    unrecognizedWord w = false := by
  have hbranch : ∀ f : Nibble, familyMask f = 0xF000#16 →
      f.toNat ≠ 0x0 ∧ f.toNat ≠ 0x8 ∧ f.toNat ≠ 0xE ∧ f.toNat ≠ 0xF := by decide
  obtain ⟨h0, h8, hE, hF⟩ := hbranch _ h
  rw [unrecognizedWord, div_of_family rfl]
  split
  · contradiction
  · contradiction
  · contradiction
  · contradiction
  · rfl

theorem decode_rejects_iff (w : Word) : (∃ r, decode w = .error r) ↔ unrecognizedWord w = true := by
  rcases family_cases (fieldF w) with hf | hf | hf | hf | hf
  · rw [decode_family0 hf, decode0_rejects_iff, unrecognizedWord_family0 hf]
  · rw [decode_family8 hf, decode8_rejects_iff, unrecognizedWord_family8 hf]
  · rw [decode_familyE hf, decodeE_rejects_iff, unrecognizedWord_familyE hf]
  · rw [decode_familyF hf, decodeF_rejects_iff, unrecognizedWord_familyF hf]
  · obtain ⟨i, hi⟩ := decode_of_wholeFamily hf
    simp [hi, unrecognizedWord_of_wholeFamily hf]

/-! ## What the opcode map lists (R91, R95) -/

/-- What is left of a word when the operands of its family are masked out: the pattern of its row, where it has one. -/
def mapKey (w : Word) : Word := w &&& familyMask (fieldF w)

/-- The patterns of the opcode map, in its order (R95). -/
def opcodePatterns : List Word := opcodeTable.map (·.pattern)

theorem opcodePatterns_nodup : opcodePatterns.Nodup := by decide

/-- Each row's mask is the one of its pattern's family. -/
theorem mask_eq_familyMask : ∀ r ∈ opcodeTable, r.mask = familyMask (fieldF r.pattern) := by decide

theorem fieldF_and_familyMask (w : Word) (f : Nibble) : fieldF (w &&& familyMask f) = fieldF w := by
  have hmask : ∀ f : Nibble, (familyMask f).extractLsb' 12 4 = BitVec.allOnes 4 := by decide
  rw [fieldF, BitVec.extractLsb'_and, hmask, BitVec.and_allOnes, fieldF]

/-- A row accepts exactly the words whose key is its pattern; so two rows that accept one word have one pattern. -/
theorem accepts_iff_mapKey {r : OpcodeRow} (hr : r ∈ opcodeTable) (w : Word) :
    r.accepts w = true ↔ mapKey w = r.pattern := by
  have hm := mask_eq_familyMask r hr
  rw [OpcodeRow.accepts, beq_iff_eq, hm, mapKey]
  constructor
  · intro h
    have hF : fieldF w = fieldF r.pattern := by rw [← fieldF_and_familyMask w (fieldF r.pattern), h]
    rw [hF, h]
  · intro h
    have hF : fieldF r.pattern = fieldF w := by rw [← h, fieldF_and_familyMask]
    rw [hF, h]

theorem length_filter_accepts (w : Word) :
    (opcodeTable.filter (·.accepts w)).length = if mapKey w ∈ opcodePatterns then 1 else 0 := by
  rw [← opcodePatterns_nodup.count, opcodePatterns, List.count, List.countP_map, ← List.countP_eq_length_filter]
  refine List.countP_congr fun r hr => ?_
  rw [accepts_iff_mapKey hr, Function.comp_apply, beq_iff_eq, eq_comm]

theorem recognizedWord_iff (w : Word) : recognizedWord w = true ↔ mapKey w ∈ opcodePatterns := by
  rw [recognizedWord, List.any_eq_true, opcodePatterns, List.mem_map]
  exact exists_congr fun r => and_congr_right fun hr => (accepts_iff_mapKey hr w).trans eq_comm

theorem fieldF_mapKey (w : Word) : fieldF (mapKey w) = fieldF w := fieldF_and_familyMask w _

/-! The key of a word, by family: its family and the sub-field that family branches on, the operands zero. -/

theorem mapKey_family0 {w : Word} (hf : fieldF w = 0x0#4) : mapKey w = formatNNN 0x0#4 (fieldNNN w) := by
  rw [formatNNN_of_family hf, mapKey, hf]; exact and_FFFF w

theorem mapKey_family8 {w : Word} (hf : fieldF w = 0x8#4) : mapKey w = formatXYN 0x8 0 0 (fieldN w) := by
  apply BitVec.eq_of_toNat_eq
  rw [mapKey, toNat_formatXYN, toNat_fieldN, hf]
  exact (toNat_and_F00F w).trans (by rw [div_of_family hf]; rfl)

theorem mapKey_of_familyMask_F0FF {w : Word} {f : Nibble} (hf : fieldF w = f) (hm : familyMask f = 0xF0FF#16) :
    mapKey w = formatX f 0 (fieldNN w) := by
  apply BitVec.eq_of_toNat_eq
  rw [mapKey, toNat_formatX, toNat_fieldNN, hf, hm, toNat_and_F0FF, div_of_family hf]
  simp

theorem mapKey_of_wholeFamily {w : Word} (h : familyMask (fieldF w) = 0xF000#16) :
    mapKey w = formatNNN (fieldF w) 0#12 := by
  apply BitVec.eq_of_toNat_eq
  rw [mapKey, h, toNat_and_F000, toNat_formatNNN, toNat_fieldF, BitVec.toNat_zero, Nat.add_zero]

/-- Where the rows of a family are its codes, laid out by a format, a word of the family matches a row exactly when its
sub-field is one of the codes. -/
theorem mapKey_mem_iff {w : Word} {f : Nibble} {k : Nat} {layout : BitVec k → Word} {c : BitVec k}
    {codes : List (BitVec k)} (hf : fieldF w = f) (hkey : mapKey w = layout c) (hinj : layout.Injective)
    (hrows : (opcodePatterns.filter (fieldF · = f)).Perm (codes.map layout)) :
    mapKey w ∈ opcodePatterns ↔ c ∈ codes := by
  rw [← List.mem_map_of_injective hinj, ← hrows.mem_iff, ← hkey, List.mem_filter, fieldF_mapKey, hf]
  simp

theorem mapKey_mem_iff_not_unrecognized (w : Word) : mapKey w ∈ opcodePatterns ↔ unrecognizedWord w = false := by
  rw [← Bool.not_eq_true, iff_not_comm]
  rcases family_cases (fieldF w) with hf | hf | hf | hf | hf
  · rw [unrecognizedWord_family0 hf, mapKey_mem_iff hf (mapKey_family0 hf)
      (Function.LeftInverse.injective (fieldNNN_formatNNN 0x0)) (codes := family0Codes) (by decide)]
  · rw [unrecognizedWord_family8 hf, mapKey_mem_iff hf (mapKey_family8 hf)
      (Function.LeftInverse.injective (fieldN_formatXYN 0x8 0 0)) (codes := family8Codes) (by decide)]
  · rw [unrecognizedWord_familyE hf, mapKey_mem_iff hf (mapKey_of_familyMask_F0FF hf (by decide))
      (Function.LeftInverse.injective (fieldNN_formatXNN 0xE 0)) (codes := familyECodes) (by decide)]
  · rw [unrecognizedWord_familyF hf, mapKey_mem_iff hf (mapKey_of_familyMask_F0FF hf (by decide))
      (Function.LeftInverse.injective (fieldNN_formatXNN 0xF 0)) (codes := familyFCodes) (by decide)]
  · have hrow : ∀ f : Nibble, familyMask f = 0xF000#16 → formatNNN f 0 ∈ opcodePatterns := by decide
    rw [unrecognizedWord_of_wholeFamily hf, mapKey_of_wholeFamily hf]
    exact iff_of_false Bool.false_ne_true (not_not_intro (hrow _ hf))

/-- Settles O4: one row accepts a word whose key is a pattern of the map, none any other. -/
theorem opcodePatternsAreDisjointAndCover : Obligations.OpcodePatternsAreDisjointAndCover := by
  refine ⟨rfl, fun w => ?_⟩
  rw [length_filter_accepts]
  simp only [mapKey_mem_iff_not_unrecognized]
  cases unrecognizedWord w <;> rfl

/-- Settles O3: the decoder rejects the words R92 lists, which are those whose key is no pattern of the map. -/
theorem decodeAcceptsExactlyTheOpcodeMap : Obligations.DecodeAcceptsExactlyTheOpcodeMap := by
  intro w
  refine ⟨?_, decode_rejects_iff w⟩
  rw [recognizedWord_iff, mapKey_mem_iff_not_unrecognized, ← Bool.not_eq_true, ← decode_rejects_iff]
  cases decode w <;> simp

end Sys2Proof
end

section
/-! SUPPORT. The cycle driver: the dispatch of a fetched word, and the engine that a fault has halted (40_cycle.md R100 to
R107; 60_exceptions.md R305, R316). -/

namespace Sys2Proof.Machine

theorem dispatch_of_decode {w : Word} {i : Instr} (h : decode w = .ok i) (s : State) : dispatch w s = exec i s := by
  rw [dispatch, h]

theorem dispatch_of_unrecognized {w : Word} (h : unrecognizedWord w = true) (s : State) :
    dispatch w s = .next (s.unrecognized w) := by
  obtain ⟨r, hr⟩ := (decode_rejects_iff w).2 h
  rw [dispatch, hr]

/-- A handler's record names the address its word was fetched from (60_exceptions.md R311). -/
theorem State.afterFetch_pcInstr (s : State) (keys : Vector Bool 16) (rnd : Byte) :
    (s.afterFetch keys rnd).pcInstr = s.pc := BitVec.add_sub_cancel s.pc 2

theorem ChangesOnly.afterFetch (s : State) (keys : Vector Bool 16) (rnd : Byte) {ps : List Part} (hp : Part.pc ∈ ps)
    (hk : Part.keys ∈ ps) (hi : Part.hostInputs ∈ ps) : ChangesOnly ps s (s.afterFetch keys rnd) := by
  simp [ChangesOnly, hp, hk, hi]

theorem ChangesOnly.tick (s : State) {ps : List Part} (hd : Part.delay ∈ ps) (hs : Part.sound ∈ ps) :
    ChangesOnly ps s s.tick := by simp [ChangesOnly, hd, hs]

theorem cycle_of_halted {s : State} {e : Event} (h : s.halted = some e) (keys : Vector Bool 16) (rnd : Byte) :
    cycle keys rnd s = .fault (.halted e) := by rw [cycle, h]

/-- Settles O6: the step dispatches the word at pc, on the state written out in the statement. -/
theorem stepRunsTheDecodedInstruction : Obligations.StepRunsTheDecodedInstruction := by
  intro s i hr hf hi
  rw [step_of_fetchable hr hf, dispatch_of_decode hi]
  rfl

/-- Settles O7: the step advances pc, refreshes K and then takes one report, which names the pc before the advance. -/
theorem unrecognizedWordIsReportedAndSkipped : Obligations.UnrecognizedWordIsReportedAndSkipped := by
  intro s hr hf hw
  have hadvance := ChangesOnly.afterFetch s.hostActs s.nextInput.keys s.nextInput.rnd
    (ps := [.pc, .keys, .events, .hostInputs]) (by decide) (by decide) (by decide)
  have hreport := ChangesOnly.raise (s.hostActs.afterFetch s.nextInput.keys s.nextInput.rnd)
    .unrecognizedOpcode s.wordAtPc none (ps := [.pc, .keys, .events, .hostInputs]) (by decide)
  refine ⟨_, (step_of_fetchable hr hf).trans (dispatch_of_unrecognized hw _), rfl, rfl, hr, ?_,
    hadvance.trans hreport⟩
  rw [State.unrecognized, State.raise_log, State.handlerEvent, State.afterFetch_pcInstr]
  rfl

/-- Settles O11: a cycle tests `halted` before anything else; the tick does not read it, and takes 1 from each timer. -/
theorem haltedEngineHasNoStep : Obligations.HaltedEngineHasNoStep := fun s _ h =>
  ⟨cycle_of_halted h, step_of_halted h, tickDown_toNat s.DT, tickDown_toNat s.ST,
    .tick s (by decide) (by decide)⟩

end Sys2Proof.Machine
end

section
/-! SUPPORT. The display instructions: the range check of Dxyn in the spec's own k, and the two ways a draw can end
(41_display.md R120 to R124). -/

namespace Sys2Proof.Machine

/-! ## The word and the range check of Dxyn -/

theorem toNat_encode_drw (x y : Reg) (n : Nibble) :
    (encode (.drw x y n)).toNat = 0xD000 + x.val * 0x100 + y.val * 0x10 + n.toNat := toNat_formatXYN 0xD x y n

theorem encode_drw (x y : Reg) (n : Nibble) :
    encode (.drw x y n) = BitVec.ofNat 16 (0xD000 + x.val * 0x100 + y.val * 0x10 + n.toNat) := by
  rw [← toNat_encode_drw, BitVec.ofNat_toNat, BitVec.setWidth_eq]

/-- The number `k` of the last sprite row whose byte an `n`-row draw from row `y0` on reads (41_display.md R122). -/
def lastRowRead (y0 n : Nat) : Nat := if y0 + n - 1 < 32 then n - 1 else 32 - y0

theorem spriteBytesRead_eq_zero {y0 n : Nat} (hy : y0 < 32) : spriteBytesRead y0 n = 0 ↔ n = 0 := by
  unfold spriteBytesRead
  split <;> omega

theorem spriteBytesRead_of_ne_zero (y0 : Nat) {n : Nat} (hn : n ≠ 0) :
    spriteBytesRead y0 n = lastRowRead y0 n + 1 := by
  unfold spriteBytesRead lastRowRead
  split <;> split <;> omega

theorem State.originY_lt (s : State) (y : Reg) : s.originY y < 32 := Nat.mod_lt _ (by decide)

theorem nibble_toNat_eq_zero {n : Nibble} : n.toNat = 0 ↔ n = 0 := BitVec.toNat_inj (y := 0#4)

variable {s : State} {y : Reg} {n : Nibble}

theorem State.drawBad_eq_none :
    s.drawBad y n = none ↔ n = 0 ∨ s.I.toNat + lastRowRead (s.originY y) n.toNat ≤ 0xFFF := by
  rw [drawBad, firstBad_eq_none, spriteBytesRead_eq_zero (s.originY_lt y), nibble_toNat_eq_zero]
  refine or_congr_right' fun hn => ?_
  rw [spriteBytesRead_of_ne_zero _ (mt nibble_toNat_eq_zero.1 hn), memSize_eq]
  omega

theorem State.drawBad_of_bad (hn : n ≠ 0) (h : 0xFFF < s.I.toNat + lastRowRead (s.originY y) n.toNat) :
    s.drawBad y n = some (max s.I.toNat 0x1000) := by
  rw [drawBad, spriteBytesRead_of_ne_zero _ (mt nibble_toNat_eq_zero.1 hn)]
  exact firstBad_of_bad (by omega) (by rw [memSize_eq]; omega)

/-! ## A draw out of range -/

theorem exec_drw_of_bad {a : Nat} (x : Reg) (h : s.drawBad y n = some a) :
    ∃ t, exec (.drw x y n) s = .next t ∧
      HaltsWith { code := .memRangeData, pc := s.pc - 2,
                  instr := some (BitVec.ofNat 16 (0xD000 + x.val * 0x100 + y.val * 0x10 + n.toNat)),
                  info := some a } s t := by
  rw [← encode_drw]
  have hexec : exec (.drw x y n) s = .next (s.raise .memRangeData (encode (.drw x y n)) (some a)) := by
    rw [exec, execDrw, h]
  exact ⟨_, hexec, .raise s rfl _ _⟩

/-- Settles O35: the bytes the model reads are one more than the spec's `k`, unless there are none. -/
theorem drwOutOfRangeFaultsWithoutEffect : Obligations.DrwOutOfRangeFaultsWithoutEffect := fun _ x _ _ =>
  ⟨State.drawBad_eq_none, fun hn hbad => exec_drw_of_bad x (State.drawBad_of_bad hn hbad)⟩

/-! ## A draw in range -/

/-- The state a draw that reads no byte above 0xFFF leaves (41_display.md R121). -/
def State.drawn (s : State) (x y : Reg) (n : Nibble) : State :=
  (s.setFB (s.drawSprite x y n).1).setV vF (flagBit (s.drawSprite x y n).2)

theorem exec_drw_of_fits (x : Reg) (h : s.drawBad y n = none) : exec (.drw x y n) s = .next (s.drawn x y n) := by
  rw [exec, execDrw, h]
  rfl

theorem flagBit_cases (c : Bool) : flagBit c = 1 ∨ flagBit c = 0 := by cases c <;> simp [flagBit]

theorem flagBit_eq_one {c : Bool} : flagBit c = 1 ↔ c = true := by cases c <;> simp [flagBit]

namespace State

variable (s : State) (x y : Reg) (n : Nibble)

theorem drawn_getV_vF : (s.drawn x y n).getV vF = flagBit (s.drawSprite x y n).2 := setV_getV_same _ _ _

theorem drawn_getV_ne {r : Reg} (h : r ≠ vF) : (s.drawn x y n).getV r = s.getV r := setV_getV_ne _ h _

theorem drawn_changesOnly : ChangesOnly [.screen, .reg vF] s (s.drawn x y n) :=
  (ChangesOnly.setFB s _ (by simp)).trans (.setV _ _ _ (by simp))

theorem drawn_flag_cases : (s.drawn x y n).getV vF = 1 ∨ (s.drawn x y n).getV vF = 0 := by
  rw [drawn_getV_vF]
  exact flagBit_cases _

theorem drawn_pixel {row col : Nat} (hr : row < 32) (hc : col < 64) :
    (s.drawn x y n).FB.get row col =
      if s.spriteBit (s.originX x) (s.originY y) n.toNat row col then (s.FB.get row col).flip
      else s.FB.get row col := (s.drawSprite_spec x y n).1 row col hr hc

theorem drawn_flag_eq_one : (s.drawn x y n).getV vF = 1 ↔ ∃ row col, row < 32 ∧ col < 64 ∧ s.FB.get row col = .on ∧
    s.spriteBit (s.originX x) (s.originY y) n.toNat row col = true := by
  rw [drawn_getV_vF, flagBit_eq_one, (s.drawSprite_spec x y n).2]

/-- A pixel of the sprite is ON after a draw exactly where that draw turned it ON. -/
theorem drawn_on_iff {row col : Nat} (hr : row < 32) (hc : col < 64) :
    ((s.drawn x y n).FB.get row col = .on ∧ s.spriteBit (s.originX x) (s.originY y) n.toNat row col = true) ↔
      s.FB.get row col = .off ∧ (s.drawn x y n).FB.get row col = .on := by
  rw [drawn_pixel s x y n hr hc]
  cases s.spriteBit (s.originX x) (s.originY y) n.toNat row col <;> cases s.FB.get row col <;> decide

end State

/-- Settles O34: both ends of a draw, the one in range pixel by pixel. -/
theorem drwTogglesTheSpritesPixels : Obligations.DrwTogglesTheSpritesPixels := by
  refine fun s x y n => ⟨toNat_encode_drw x y n, fun hfits => ?_, fun hbad => ?_⟩
  · exact ⟨_, exec_drw_of_fits x hfits, fun _ _ => s.drawn_pixel x y n, s.drawn_flag_cases x y n,
      s.drawn_flag_eq_one x y n, s.drawn_changesOnly x y n⟩
  · obtain ⟨a, ha⟩ := Option.ne_none_iff_exists'.1 hbad
    obtain ⟨t, hexec, hhalts⟩ := exec_drw_of_bad x ha
    exact ⟨t, _, hexec, rfl, hhalts⟩

/-! ## A second draw at the same place

Where x and y are not F, the sprite's origin, its bits and its range check read neither FB nor VF: both draws
have them alike. -/

section
variable (s : State) {x y : Reg} (n : Nibble) (hx : x ≠ vF) (hy : y ≠ vF)
include hy

theorem State.drawn_originY : (s.drawn x y n).originY y = s.originY y := by
  rw [originY, drawn_getV_ne s x y n hy, originY]

theorem State.drawn_drawBad : (s.drawn x y n).drawBad y n = s.drawBad y n := by
  rw [drawBad, s.drawn_originY n hy]
  rfl

include hx

theorem State.drawn_spriteBit (row col : Nat) :
    (s.drawn x y n).spriteBit ((s.drawn x y n).originX x) ((s.drawn x y n).originY y) n.toNat row col =
      s.spriteBit (s.originX x) (s.originY y) n.toNat row col := by
  rw [s.drawn_originY n hy, originX, drawn_getV_ne s x y n hx]
  rfl

/-- Toggling the same pixels twice leaves each as it was. -/
theorem State.drawn_drawn_FB : ((s.drawn x y n).drawn x y n).FB = s.FB := by
  refine Framebuffer.ext_get fun row col hr hc => ?_
  rw [drawn_pixel _ x y n hr hc, s.drawn_spriteBit n hx hy, drawn_pixel s x y n hr hc]
  split
  · exact Pixel.flip_flip _
  · rfl

theorem State.drawn_drawn_flag_eq_one : ((s.drawn x y n).drawn x y n).getV vF = 1 ↔
    ∃ row col, row < 32 ∧ col < 64 ∧ s.FB.get row col = .off ∧ (s.drawn x y n).FB.get row col = .on := by
  rw [drawn_flag_eq_one]
  refine exists_congr fun row => exists_congr fun col => and_congr_right fun hr => and_congr_right fun hc => ?_
  rw [s.drawn_spriteBit n hx hy, s.drawn_on_iff x y n hr hc]

end

/-- Settles O28: the second draw toggles the pixels of the first, and collides where the first turned one ON. -/
theorem drawingTwiceRestoresTheScreen : Obligations.DrawingTwiceRestoresTheScreen := fun s x y n hx hy hfits =>
  ⟨s.drawn x y n, _, exec_drw_of_fits x hfits, exec_drw_of_fits x ((s.drawn_drawBad n hy).trans hfits),
    s.drawn_drawn_FB n hx hy, State.drawn_flag_cases _ x y n, s.drawn_drawn_flag_eq_one n hx hy⟩

/-- Settles O33: the framebuffer is replaced by the clear one. -/
theorem clsTurnsEveryPixelOff : Obligations.ClsTurnsEveryPixelOff :=
  ⟨rfl, fun s => ⟨s.setFB Framebuffer.clear, rfl, fun row col _ _ => Framebuffer.get_clear row col,
    .setFB s _ (by simp)⟩⟩

end Sys2Proof.Machine
end

section
/-! SUPPORT. The flow instructions: a return, a call and the two jumps, each with what it leaves (42_flow.md R140 to
R143; 60_exceptions.md R303, R304). -/

namespace Sys2Proof.Machine

/-! ## Their words and targets -/

theorem toNat_encode_call (nnn : Addr12) : (encode (.call nnn)).toNat = 0x2000 + nnn.toNat := toNat_formatNNN 0x2 nnn

theorem encode_call (nnn : Addr12) : encode (.call nnn) = BitVec.ofNat 16 (0x2000 + nnn.toNat) := by
  rw [← toNat_encode_call, BitVec.ofNat_toNat, BitVec.setWidth_eq]

theorem toNat_zextAddr (nnn : Addr12) : (zextAddr nnn).toNat = nnn.toNat := BitVec.toNat_setWidth_of_le (by decide)

theorem toNat_zextByte (b : Byte) : (zextByte b).toNat = b.toNat := BitVec.toNat_setWidth_of_le (by decide)

/-- The sum of Bnnn stays below 0x10000, so that nothing masks it (42_flow.md R143). -/
theorem toNat_zextByte_add_zextAddr (b : Byte) (nnn : Addr12) :
    (zextByte b + zextAddr nnn).toNat = b.toNat + nnn.toNat := by
  rw [BitVec.toNat_add, toNat_zextByte, toNat_zextAddr]
  omega

/-! ## The call stack -/

namespace State

variable {s : State} (h : spToInt s.SP < 15) (v : Word)
include h

/-- The top of the stack after a push is the pushed value, and SP - 1 of there is the SP before. -/
theorem push_top : ∃ k : Fin 16, (s.push v).SP = some k ∧ (s.push v).S[k.val] = v ∧ spDown k = s.SP := by
  obtain ⟨k, -, hdown, hpush⟩ := push_of_not_full h v
  rw [hpush]
  exact ⟨k, rfl, Vector.getElem_set_self _, hdown⟩

theorem spToInt_push : spToInt (s.push v).SP = spToInt s.SP + 1 := by
  obtain ⟨k, hk, -, hpush⟩ := push_of_not_full h v
  rw [hpush]
  exact hk

theorem push_entry (j : Fin 16) :
    (s.push v).S[j.val] = if spToInt s.SP + 1 = j.val then v else s.S[j.val] := by
  obtain ⟨k, hk, -, hpush⟩ := push_of_not_full h v
  rw [hpush, ← hk, Vector.getElem_set]
  simp only [Int.natCast_inj]

end State

/-! ## Returns and calls -/

theorem exec_ret_of_top {s : State} {k : Fin 16} (h : s.SP = some k) :
    exec .ret s = .next { s with pc := s.S[k.val], SP := spDown k } := by rw [exec, execRet, h]

theorem exec_ret_of_empty {s : State} (h : s.SP = none) :
    exec .ret s = .next (s.raise .stackUnderflow (encode .ret) none) := by rw [exec, execRet, h]

/-- Settles O36: the two values of SP are the two branches of a return. -/
theorem retPopsOrReports : Obligations.RetPopsOrReports := by
  refine ⟨rfl, fun s => ⟨fun k hk => ?_, fun hempty => ?_⟩⟩
  · exact ⟨_, exec_ret_of_top (spToInt_eq_coe.1 hk), rfl, spToInt_spDown k, .pcSp s _ _ (by simp) (by simp)⟩
  · exact ⟨_, exec_ret_of_empty (spToInt_eq_neg_one.1 hempty), .raise s rfl _ none⟩

/-- Settles O37: a call with room is a push and a jump, one without only a report. -/
theorem callPushesOrReports : Obligations.CallPushesOrReports := by
  refine fun s nnn => ⟨toNat_encode_call nnn, fun hroom => ?_, fun hfull => ?_⟩
  · have hframe : ChangesOnly [.pc, .sp, .entries] s ((s.push s.pc).setPc (zextAddr nnn)) :=
      (ChangesOnly.push s _ (by simp) (by simp)).trans (.setPc _ _ (by simp))
    exact ⟨_, execCall_of_room nnn hroom, toNat_zextAddr nnn, State.spToInt_push hroom _,
      State.push_entry hroom _, hframe⟩
  · rw [← encode_call]
    exact ⟨_, execCall_of_full nnn hfull, .raise s rfl _ none⟩

/-- Settles O27: the return pops what the call pushed, for it reads the stack and not pc. -/
theorem callThenReturnComesBack : Obligations.CallThenReturnComesBack := by
  intro s nnn p hroom
  obtain ⟨k, hsp, hentry, hdown⟩ := State.push_top hroom s.pc
  exact ⟨_, _, execCall_of_room nnn hroom, rfl, exec_ret_of_top hsp, hentry, hdown⟩

/-! ## Jumps -/

theorem fetch_fault_of_gt {s : State} (h : 0xFFE < s.pc.toNat) : fetch .fault s = .error .memRangeFetch := by
  rw [fetch, if_neg (by rw [romBase_eq]; omega), if_pos (by omega)]

/-- A write of the address `a` to pc, and the fetch after it: it faults where `a` is below 0x200 or above 0xFFE. -/
theorem setPc_jump (s : State) {w : Word} {a : Nat} (hw : w.toNat = a) :
    (s.setPc w).pc.toNat = a ∧ ChangesOnly [.pc] s (s.setPc w) ∧
      (a < 0x200 → fetch fetchBelowRom (s.setPc w) = .error .fetchReserved) ∧
      (0xFFE < a → fetch fetchBelowRom (s.setPc w) = .error .memRangeFetch) := by
  subst hw
  exact ⟨rfl, .setPc s w (by simp), fetch_fault_of_lt (s := s.setPc w), fetch_fault_of_gt (s := s.setPc w)⟩

/-- Settles O38: both jumps write pc, with nnn and with the sum, which is not masked. -/
theorem jumpsWriteThePc : Obligations.JumpsWriteThePc := by
  intro s nnn
  obtain ⟨hpc, hframe, hlow, hhigh⟩ := setPc_jump s (toNat_zextAddr nnn)
  exact ⟨toNat_formatNNN 0x1 nnn, toNat_formatNNN 0xB nnn,
    ⟨_, rfl, hpc, hframe, hlow, fun hlast => hhigh (by omega)⟩,
    ⟨_, rfl, setPc_jump s (toNat_zextByte_add_zextAddr (s.getV 0) nnn)⟩⟩

end Sys2Proof.Machine
end

section
/-! SUPPORT. The conditional skips: what a taken and an untaken skip leave, and a skip on a key with its fault
(43_skip.md R160 to R166; 60_exceptions.md R308). -/

namespace Sys2Proof.Machine

/-! ## A skip on a condition -/

theorem State.skipIf_pc_cases (s : State) (c : Bool) : (s.skipIf c).pc = s.pc ∨ (s.skipIf c).pc = s.pc + 2 := by
  cases c
  · exact .inl rfl
  · exact .inr rfl

/-- A skip whose condition says that `p` holds. -/
theorem State.skipIf_of_iff (s : State) {c : Bool} {p : Prop} [Decidable p] (h : c = true ↔ p) :
    (s.skipIf c).pc = (if p then s.pc + 2 else s.pc) ∧ ChangesOnly [.pc] s (s.skipIf c) :=
  ⟨if_congr h rfl rfl, .skipIf s c (by simp)⟩

/-- A skip whose condition says that `p` fails. -/
theorem State.skipIf_of_iff_not (s : State) {c : Bool} {p : Prop} [Decidable p] (h : c = true ↔ ¬ p) :
    (s.skipIf c).pc = (if p then s.pc else s.pc + 2) ∧ ChangesOnly [.pc] s (s.skipIf c) := by
  rw [← ite_not]
  exact s.skipIf_of_iff h

/-! ## A skip on a key -/

theorem State.skipOnKey_pc_cases (s : State) (i : Instr) (x : Reg) (pressed : Bool) :
    (s.skipOnKey i x pressed).pc = s.pc ∨ (s.skipOnKey i x pressed).pc = s.pc + 2 := by
  unfold skipOnKey
  split
  · exact s.skipIf_pc_cases _
  · exact .inl rfl

/-- A key number above 15 is the KeyRange fault, with the instruction's word given as a number. -/
theorem HaltsWith.skipOnKey {s : State} {i : Instr} {x : Reg} {n : Nat} (hi : (encode i).toNat = n)
    (h : 15 < (s.getV x).toNat) (pressed : Bool) :
    HaltsWith { code := .keyRange, pc := s.pc - 2, instr := some (BitVec.ofNat 16 n), info := some (s.getV x).toNat } s
      (s.skipOnKey i x pressed) := by
  rw [State.skipOnKey_of_range i h, ← hi, BitVec.ofNat_toNat, BitVec.setWidth_eq]
  exact .raise s rfl _ _

theorem toNat_encode_skp (x : Reg) : (encode (.skp x)).toNat = 0xE09E + x.val * 0x100 :=
  (toNat_formatX 0xE x 0x9E).trans (Nat.add_right_comm _ _ _)

theorem toNat_encode_sknp (x : Reg) : (encode (.sknp x)).toNat = 0xE0A1 + x.val * 0x100 :=
  (toNat_formatX 0xE x 0xA1).trans (Nat.add_right_comm _ _ _)

theorem exec_skp_of_key {s : State} {x : Reg} {k : Fin 16} (h : (s.getV x).toNat = k.val) :
    exec (.skp x) s = .next (s.skipIf (s.K[k.val] == true)) := congrArg _ (State.skipOnKey_of_key _ h true)

theorem exec_sknp_of_key {s : State} {x : Reg} {k : Fin 16} (h : (s.getV x).toNat = k.val) :
    exec (.sknp x) s = .next (s.skipIf (s.K[k.val] == false)) := congrArg _ (State.skipOnKey_of_key _ h false)

/-! ## The statements -/

/-- R166 for each of the six: four skip on a condition and two on a key. -/
theorem exec_skip {i : Instr} (hi : isSkip i = true) (s : State) :
    ∃ t, exec i s = .next t ∧ (t.pc = s.pc ∨ t.pc = s.pc + 2) ∧ ChangesOnly [.pc, .events] s t := by
  cases i with
  | seNn | sneNn | seVy | sneVy => exact ⟨_, rfl, s.skipIf_pc_cases _, .skipIf s _ (by simp)⟩
  | skp | sknp => exact ⟨_, rfl, s.skipOnKey_pc_cases _ _ _, .skipOnKey s _ _ _ (by simp) (by simp)⟩
  | _ => cases hi

/-- Settles O39: the one next state of `exec` is the one `exec_skip` speaks of. -/
theorem skipsMoveOnlyThePc : Obligations.SkipsMoveOnlyThePc := by
  intro i s t hi ht
  obtain ⟨t', ht', hskip⟩ := exec_skip hi s
  obtain rfl : t' = t := by simpa [ht'] using ht
  exact hskip

/-- Settles O40: the conditions are `==` and `!=` of V[x] and nn. -/
theorem skipsCompareWithTheImmediate : Obligations.SkipsCompareWithTheImmediate := fun s x nn =>
  ⟨toNat_formatXNN 0x3 x nn, toNat_formatXNN 0x4 x nn, ⟨_, rfl, s.skipIf_of_iff beq_iff_eq⟩,
    ⟨_, rfl, s.skipIf_of_iff_not bne_iff_ne⟩⟩

/-- Settles O41: the conditions are `==` and `!=` of V[x] and V[y], and N is only in the word. -/
theorem skipsCompareTwoRegisters : Obligations.SkipsCompareTwoRegisters := fun s x y n =>
  ⟨toNat_formatXYN 0x5 x y n, toNat_formatXYN 0x9 x y n, ⟨_, rfl, s.skipIf_of_iff beq_iff_eq⟩,
    ⟨_, rfl, s.skipIf_of_iff_not bne_iff_ne⟩⟩

/-- Settles O42: up to 15 a skip on the key's slot, above it the fault. -/
theorem skipsTestTheKeySnapshot : Obligations.SkipsTestTheKeySnapshot := by
  refine fun s x => ⟨toNat_encode_skp x, toNat_encode_sknp x, fun k hk => ?_, fun hrange => ?_⟩
  · have hreleased : (s.K[k.val] == false) = true ↔ ¬ s.K[k.val] = true := by
      rw [beq_iff_eq, Bool.not_eq_true]
    exact ⟨⟨_, exec_skp_of_key hk, s.skipIf_of_iff beq_iff_eq⟩,
      ⟨_, exec_sknp_of_key hk, s.skipIf_of_iff_not hreleased⟩⟩
  · exact ⟨⟨_, rfl, .skipOnKey (toNat_encode_skp x) hrange true⟩,
      ⟨_, rfl, .skipOnKey (toNat_encode_sknp x) hrange false⟩⟩

end Sys2Proof.Machine
end

section
/-! SUPPORT. The loads and the arithmetic: writes of V[x] alone, a result with its flag as numbers, and the random byte
(44_alu.md R180 to R193). -/

namespace Sys2Proof.Machine

/-! ## The random byte -/

theorem State.override_rnd (s : State) (b : Byte) : s.override none none (some b) = { s with rnd := b } := rfl

/-- Settles O32: `exec_override` with another random byte alone. -/
theorem onlyRndTakesTheRandomByte : Obligations.OnlyRndTakesTheRandomByte := by
  intro i s b hi
  have h := exec_override s none none (some b) i (fun _ => rfl) (by simp [hi])
  simpa only [ite_self, State.override_rnd] using h

/-! ## Writes of V[x] alone -/

/-- The words of family 0x8, their fixed digits in front. -/
theorem toNat_formatXYN_family8 (x y : Reg) (n : Nibble) :
    (formatXYN 0x8#4 x y n).toNat = 0x8000 + n.toNat + x.val * 0x100 + y.val * 0x10 := by
  rw [toNat_formatXYN, BitVec.toNat_ofNat]
  omega

theorem State.setV_load (s : State) (x : Reg) (b : Byte) :
    (s.setV x b).getV x = b ∧ ChangesOnly [.reg x] s (s.setV x b) :=
  ⟨s.setV_getV_same x b, .setV s x b (by simp)⟩

/-- A write of a byte whose bits are known. -/
theorem State.setV_bits (s : State) (x : Reg) {b : Byte} {bit : Nat → Bool} (h : ∀ j, b.getLsbD j = bit j) :
    (∀ j, j < 8 → ((s.setV x b).getV x).getLsbD j = bit j) ∧ ChangesOnly [.reg x] s (s.setV x b) := by
  obtain ⟨hload, hframe⟩ := s.setV_load x b
  exact ⟨fun j _ => by rw [hload, h], hframe⟩

/-- Settles O43: both write V[x] and no flag. -/
theorem immediateLoadAndAdd : Obligations.ImmediateLoadAndAdd := by
  intro s x nn
  obtain ⟨hsum, hframe⟩ := s.setV_load x (s.getV x + nn)
  exact ⟨toNat_formatXNN 0x6 x nn, toNat_formatXNN 0x7 x nn, ⟨_, rfl, s.setV_load x nn⟩,
    ⟨_, rfl, by rw [hsum, BitVec.toNat_add], hframe⟩⟩

/-- Settles O44: a copy, and three writes of bytes known bit by bit. -/
theorem registerCopyAndLogic : Obligations.RegisterCopyAndLogic := fun s x y =>
  ⟨toNat_formatXYN_family8 x y 0x0, toNat_formatXYN_family8 x y 0x1, toNat_formatXYN_family8 x y 0x2,
    toNat_formatXYN_family8 x y 0x3, ⟨_, rfl, s.setV_load x (s.getV y)⟩,
    ⟨_, rfl, s.setV_bits x fun _ => BitVec.getLsbD_or⟩, ⟨_, rfl, s.setV_bits x fun _ => BitVec.getLsbD_and⟩,
    ⟨_, rfl, s.setV_bits x fun _ => BitVec.getLsbD_xor⟩⟩

/-- Settles O48: the byte written is `rnd &&& nn`. -/
theorem rndMasksTheRandomByte : Obligations.RndMasksTheRandomByte := fun s x nn =>
  ⟨toNat_formatXNN 0xC x nn, ⟨_, rfl, s.setV_bits x fun _ => BitVec.getLsbD_and⟩⟩

/-! ## The results and the flags as numbers (R188 to R192)

The reverse subtraction is the subtraction with its operands exchanged. -/

section
variable (a b : Byte)

theorem toNat_flagBit_decide (p : Prop) [Decidable p] : (flagBit (decide p)).toNat = if p then 1 else 0 := by
  by_cases hp : p <;> simp [flagBit, hp]

theorem toNat_flagOpResult_add : (flagOpResult .add a b).toNat = (a.toNat + b.toNat) % 256 := by
  rw [flagOpResult, BitVec.toNat_ofNat, Nat.mod_mod]

theorem toNat_flagOpResult_sub : ((flagOpResult .sub a b).toNat : Int) = ((a.toNat : Int) - b.toNat) % 256 := by
  rw [flagOpResult, BitVec.toNat_ofInt]
  omega

theorem toNat_flagOpResult_shr : (flagOpResult .shr a b).toNat = a.toNat / 2 := by
  rw [flagOpResult, BitVec.toNat_ushiftRight, Nat.shiftRight_one]

theorem toNat_flagOpResult_shl : (flagOpResult .shl a b).toNat = a.toNat * 2 % 256 := by
  rw [flagOpResult, BitVec.toNat_shiftLeft, Nat.shiftLeft_eq]

theorem toNat_flagOpFlag_shr : (flagOpFlag .shr a b).toNat = a.toNat % 2 := Nat.and_one_is_mod a.toNat

theorem toNat_flagOpFlag_shl : (flagOpFlag .shl a b).toNat = a.toNat / 128 := by
  rw [flagOpFlag, BitVec.toNat_ushiftRight, Nat.shiftRight_eq_div_pow]

/-- The bit shifted out of the low end, shifted once more. -/
theorem toNat_flagOpLiteral_shr : (flagOpLiteral .shr a b).toNat = 0 := by
  rw [flagOpLiteral, BitVec.toNat_ushiftRight, Nat.shiftRight_one, toNat_flagOpFlag_shr]
  omega

/-- The bit shifted out of the high end, shifted once more. -/
theorem toNat_flagOpLiteral_shl : (flagOpLiteral .shl a b).toNat = a.toNat / 128 * 2 := by
  have ha : a.toNat < 256 := a.isLt
  rw [flagOpLiteral, BitVec.toNat_shiftLeft, Nat.shiftLeft_eq, toNat_flagOpFlag_shl]
  omega

end

/-! ## A result with its flag (R180, R181) -/

section
variable (s : State) {op : FlagOp} (x : Reg) {a b : Byte} {α : Type} (val : Byte → α) {r : α} {f l : Nat}
  (hr : val (flagOpResult op a b) = r) (hf : (flagOpFlag op a b).toNat = f)
include hr hf

/-- What a flag-writing instruction leaves, given its three candidates as numbers; `val` reads the result as a natural
number or as an integer. -/
theorem State.writeFlagOp_values (hl : (flagOpLiteral op a b).toNat = l) :
    let t := s.writeFlagOp op x a b
    (x ≠ vF → val (t.getV x) = r ∧ (t.getV vF).toNat = f) ∧
    (x = vF → (t.getV vF).toNat = f ∨ val (t.getV vF) = r ∨ (t.getV vF).toNat = l) ∧
    ChangesOnly [.reg x, .reg vF] s t := by
  refine ⟨fun hx => ?_, ?_, .writeFlagOp s op x a b⟩
  · obtain ⟨hresult, hflag⟩ := s.writeFlagOp_of_ne op hx a b
    rw [hresult, hflag]
    exact ⟨hr, hf⟩
  · rintro rfl
    rcases s.writeFlagOp_vF op a b with h | h | h
    · exact .inl (h ▸ hf)
    · exact .inr (.inl (h ▸ hr))
    · exact .inr (.inr (h ▸ hl))

/-- Where the literal statement order writes the flag last, two candidates are left. -/
theorem State.writeFlagOp_values_of_literal (hl : flagOpLiteral op a b = flagOpFlag op a b) :
    let t := s.writeFlagOp op x a b
    (x ≠ vF → val (t.getV x) = r ∧ (t.getV vF).toNat = f) ∧
    (x = vF → (t.getV vF).toNat = f ∨ val (t.getV vF) = r) ∧ ChangesOnly [.reg x, .reg vF] s t := by
  obtain ⟨hne, hvF, hframe⟩ := s.writeFlagOp_values x val hr hf (hl ▸ hf)
  refine ⟨hne, fun hx => ?_, hframe⟩
  rcases hvF hx with h | h | h
  · exact .inl h
  · exact .inr h
  · exact .inl h

end

/-- Settles O45: the sum and the carry as numbers. -/
theorem addWritesSumAndCarry : Obligations.AddWritesSumAndCarry := fun s x y =>
  ⟨toNat_formatXYN_family8 x y 0x4, _, rfl,
    s.writeFlagOp_values_of_literal x BitVec.toNat (toNat_flagOpResult_add _ _) (toNat_flagBit_decide _) rfl⟩

/-- Settles O46: the difference as an integer and no-borrow, the operands exchanged for 8xy7. -/
theorem subtractionsWriteDifferenceAndNoBorrow : Obligations.SubtractionsWriteDifferenceAndNoBorrow := fun s x y =>
  ⟨toNat_formatXYN_family8 x y 0x5, toNat_formatXYN_family8 x y 0x7,
    ⟨_, rfl, s.writeFlagOp_values_of_literal x (fun v => (v.toNat : Int)) (toNat_flagOpResult_sub _ _)
      (toNat_flagBit_decide _) rfl⟩,
    ⟨_, rfl, s.writeFlagOp_values_of_literal x (fun v => (v.toNat : Int)) (toNat_flagOpResult_sub _ _)
      (toNat_flagBit_decide _) rfl⟩⟩

/-- Settles O47: the shifted byte and the bit shifted out, with the shift of that bit as the third candidate. -/
theorem shiftsWriteResultAndBitShiftedOut : Obligations.ShiftsWriteResultAndBitShiftedOut := fun s x y =>
  ⟨toNat_formatXYN_family8 x y 0x6, toNat_formatXYN_family8 x y 0xE,
    ⟨_, rfl, s.writeFlagOp_values x BitVec.toNat (toNat_flagOpResult_shr _ _) (toNat_flagOpFlag_shr _ _)
      (toNat_flagOpLiteral_shr _ _)⟩,
    ⟨_, rfl, s.writeFlagOp_values x BitVec.toNat (toNat_flagOpResult_shl _ _) (toNat_flagOpFlag_shl _ _)
      (toNat_flagOpLiteral_shl _ _)⟩⟩

end Sys2Proof.Machine
end

section
/-! SUPPORT. The index register and memory instructions: the three writes of I, a store and a load at I in range and out of
it, and a load after a store (45_index_memory.md R220 to R225; 60_exceptions.md R307). -/

namespace Sys2Proof.Machine

/-! ## Their words -/

/-- Every word of family 0xF is its fixed bits with x in bits 11:8 (30_encoding.md R82). -/
theorem toNat_formatX_familyF (x : Reg) (sub : Byte) : (formatX 0xF x sub).toNat = 0xF000 + sub.toNat + x.val * 0x100 :=
  (toNat_formatX 0xF x sub).trans (Nat.add_right_comm _ _ _)

theorem toNat_encode_ldB (x : Reg) : (encode (.ldB x)).toNat = 0xF033 + x.val * 0x100 := toNat_formatX_familyF x 0x33

theorem toNat_encode_ldMemVx (x : Reg) : (encode (.ldMemVx x)).toNat = 0xF055 + x.val * 0x100 :=
  toNat_formatX_familyF x 0x55

theorem toNat_encode_ldVxMem (x : Reg) : (encode (.ldVxMem x)).toNat = 0xF065 + x.val * 0x100 :=
  toNat_formatX_familyF x 0x65

/-! ## The writes of I -/

/-- A write of the number `n` to I. -/
theorem State.setI_index (s : State) {w : Word} {n : Nat} (hw : w.toNat = n) :
    (s.setI w).I.toNat = n ∧ ChangesOnly [.index] s (s.setI w) := ⟨hw, .setI s w (by simp)⟩

theorem toNat_add_zextByte (w : Word) (b : Byte) : (w + zextByte b).toNat = (w.toNat + b.toNat) % 65536 := by
  rw [BitVec.toNat_add, toNat_zextByte]

/-- The last glyph address is 0x4FB, so that sixteen bits hold it (R222). -/
theorem toNat_glyphAddr (b : Byte) : (glyphAddr b).toNat = b.toNat * 5 := by
  rw [glyphAddr, BitVec.toNat_ofNat, fontBase, Nat.zero_add]
  omega

/-- Settles O49: each writes the number its lemma above gives. -/
theorem indexRegisterWrites : Obligations.IndexRegisterWrites := fun s x nnn =>
  ⟨toNat_formatNNN 0xA nnn, toNat_formatX_familyF x 0x1E, toNat_formatX_familyF x 0x29,
    ⟨_, rfl, s.setI_index (toNat_zextAddr nnn)⟩, ⟨_, rfl, s.setI_index (toNat_add_zextByte s.I (s.getV x))⟩,
    ⟨_, rfl, s.setI_index (toNat_glyphAddr (s.getV x))⟩⟩

/-! ## A store at I -/

/-- A data range fault, with the instruction's word given as a number. -/
theorem HaltsWith.raise_memRangeData (s : State) {i : Instr} {w : Nat} (hi : (encode i).toNat = w) (info : Option Nat) :
    HaltsWith { code := .memRangeData, pc := s.pc - 2, instr := some (BitVec.ofNat 16 w), info := info } s
      (s.raise .memRangeData (encode i) info) := by
  rw [← hi, BitVec.ofNat_toNat, BitVec.setWidth_eq]
  exact .raise s rfl _ _

section
/-! The bytes `bs` are stored at I to I + n. -/

variable {s : State} {i : Instr} {bs : List Byte} {n : Nat} (hlen : bs.length = n + 1)
include hlen

theorem HaltsWith.storeAtI {w : Nat} (hi : (encode i).toNat = w) (hbad : 0xFFF < s.I.toNat + n) :
    HaltsWith { code := .memRangeData, pc := s.pc - 2, instr := some (BitVec.ofNat 16 w),
                info := some (max s.I.toNat 0x1000) } s (s.storeAtI i bs) := by
  have hne : bs ≠ [] := List.ne_nil_of_length_eq_add_one hlen
  rw [State.storeAtI_of_bad i hne (by rw [memSize_eq]; omega)]
  exact .raise_memRangeData s hi _

variable (hfit : s.I.toNat + n ≤ 0xFFF)
include hfit

theorem State.storeAtI_frame : ChangesOnly [.memory] s (s.storeAtI i bs) := by
  rw [storeAtI_of_fits i (by rw [memSize_eq]; omega)]
  exact .setM s _ (by simp)

variable (hwf : s.M.wf)
include hwf

theorem State.read_storeAtI (a : Nat) : (s.storeAtI i bs).M.read a =
    if s.effAddr 0 ≤ a ∧ a < s.effAddr 0 + bs.length then bs.getD (a - s.effAddr 0) 0 else s.M.read a := by
  have hspace : s.I.toNat + bs.length ≤ memSize := by rw [memSize_eq]; omega
  rw [storeAtI_of_fits i hspace]
  exact Memory.read_storeBytes bs hwf hspace a

theorem State.read_storeAtI_inside {k : Nat} (hk : k ≤ n) :
    (s.storeAtI i bs).M.read (s.effAddr k) = bs.getD k 0 := by
  have haddr : s.effAddr k = s.effAddr 0 + k := rfl
  rw [read_storeAtI hlen hfit hwf, if_pos (by omega), haddr, Nat.add_sub_cancel_left]

theorem State.read_storeAtI_outside {a : Nat} (ha : a < s.effAddr 0 ∨ s.effAddr n < a) :
    (s.storeAtI i bs).M.read a = s.M.read a := by
  have haddr : s.effAddr n = s.effAddr 0 + n := rfl
  rw [read_storeAtI hlen hfit hwf, if_neg (by omega)]

end

/-- Each digit is at most `b`, so that a byte holds it (R223). -/
theorem toNat_bcdDigits (b : Byte) :
    ((bcdDigits b).getD 0 0).toNat = b.toNat / 100 ∧ ((bcdDigits b).getD 1 0).toNat = b.toNat / 10 % 10 ∧
      ((bcdDigits b).getD 2 0).toNat = b.toNat % 10 := by
  have hfits {d : Nat} (h : d ≤ b.toNat) : (BitVec.ofNat 8 d).toNat = d :=
    Nat.mod_eq_of_lt (Nat.lt_of_le_of_lt h b.isLt)
  exact ⟨hfits (Nat.div_le_self _ _), hfits ((Nat.mod_le _ _).trans (Nat.div_le_self _ _)), hfits (Nat.mod_le _ _)⟩

/-- Settles O50: a store of three bytes at I. -/
theorem bcdStoresTheThreeDigits : Obligations.BcdStoresTheThreeDigits := by
  intro s x
  have hlen : (bcdDigits (s.getV x)).length = 2 + 1 := rfl
  refine ⟨toNat_encode_ldB x, fun hwf hfit => ?_, fun hbad => ⟨_, rfl, .storeAtI hlen (toNat_encode_ldB x) hbad⟩⟩
  obtain ⟨hundreds, tens, ones⟩ := toNat_bcdDigits (s.getV x)
  have hread {k : Nat} (hk : k ≤ 2) :=
    congrArg BitVec.toNat (State.read_storeAtI_inside (i := .ldB x) hlen hfit hwf hk)
  exact ⟨_, rfl, (hread (by decide)).trans hundreds, (hread (by decide)).trans tens, (hread (by decide)).trans ones,
    fun _ => State.read_storeAtI_outside hlen hfit hwf, State.storeAtI_frame hlen hfit⟩

/-- Settles O51: a store of `x + 1` bytes at I. -/
theorem registersAreStoredFromI : Obligations.RegistersAreStoredFromI := by
  intro s x
  have hlen : (s.regsUpTo x).length = x.val + 1 := s.regsUpTo_length x
  refine ⟨toNat_encode_ldMemVx x, fun hwf hfit => ?_, fun hbad =>
    ⟨_, rfl, .storeAtI hlen (toNat_encode_ldMemVx x) hbad⟩⟩
  exact ⟨_, rfl, fun r hr => (State.read_storeAtI_inside hlen hfit hwf hr).trans (s.regsUpTo_getD hr),
    fun _ => State.read_storeAtI_outside hlen hfit hwf, State.storeAtI_frame hlen hfit⟩

/-! ## A load from I -/

/-- The state a load of V0 to V[x] from I leaves where no byte read lies above 0xFFF (R225). -/
def State.loaded (s : State) (x : Reg) : State :=
  { s with V := setRegs s.V 0 (s.M.loadBytes (s.effAddr 0) (x.val + 1)) }

theorem exec_ldVxMem_of_fits {s : State} {x : Reg} (h : s.I.toNat + x.val ≤ 0xFFF) :
    exec (.ldVxMem x) s = .next (s.loaded x) := execLdVxMem_of_fits (Nat.lt_succ_of_le h)

theorem State.loaded_getV (s : State) (x r : Reg) :
    (s.loaded x).getV r = if r ≤ x then s.M.read (s.effAddr r.val) else s.getV r := by
  have hget := getElem_setRegs (s.M.loadBytes (s.effAddr 0) (x.val + 1)) s.V 0 r
  rw [Memory.loadBytes_length, Nat.zero_add, Nat.sub_zero] at hget
  refine hget.trans ?_
  by_cases hr : r ≤ x
  · have hlt : r.val < x.val + 1 := Nat.lt_succ_of_le hr
    rw [if_pos ⟨Nat.zero_le _, hlt⟩, if_pos hr, Memory.loadBytes_getD s.M hlt]
    rfl
  · rw [if_neg fun h => hr (Nat.le_of_lt_succ h.2), if_neg hr]
    rfl

theorem State.loaded_frame (s : State) (x : Reg) : ChangesOnly (regParts x) s (s.loaded x) :=
  .setRegs s (Memory.loadBytes_length _ _ _) fun _ => mem_regParts.2

/-- Settles O52: the load in range, and the fault out of it. -/
theorem registersAreLoadedFromI : Obligations.RegistersAreLoadedFromI := fun s x =>
  ⟨toNat_encode_ldVxMem x, fun hfit => ⟨_, exec_ldVxMem_of_fits hfit, s.loaded_getV x, s.loaded_frame x⟩,
    fun hbad => ⟨_, execLdVxMem_of_bad hbad, .raise_memRangeData s (toNat_encode_ldVxMem x) _⟩⟩

/-! ## A load after a store -/

/-- Settles O29: the load reads each of V0 to V[x] where the store put it, at the same I. -/
theorem storeThenLoadRestoresRegisters : Obligations.StoreThenLoadRestoresRegisters := by
  intro s x W hwf hfit
  refine ⟨_, _, execLdMemVx_of_fits hfit, exec_ldVxMem_of_fits hfit, fun r => ?_⟩
  rw [State.loaded_getV]
  by_cases hr : r ≤ x
  · rw [if_pos hr, if_pos hr]
    exact State.read_storedRegs hwf hfit hr
  · rw [if_neg hr, if_neg hr]
    rfl

end Sys2Proof.Machine
end

section
/-! SUPPORT. The timers and the key wait: a key pressed ends the wait, none rewinds it (46_timer_key.md R250 to R253). -/

namespace Sys2Proof.Machine

/-! ## The key wait -/

theorem exec_ldVxK_of_pressed {s : State} {k : Fin 16} (x : Reg) (h : firstKey s.K = some k) :
    exec (.ldVxK x) s = .next (s.setV x (BitVec.ofNat 8 k.val)) := by
  rw [exec, execLdVxK, h]

theorem exec_ldVxK_of_none {s : State} (x : Reg) (h : firstKey s.K = none) :
    exec (.ldVxK x) s = .next (s.setPc (s.pc - 2)) := by
  rw [exec, execLdVxK, h]

theorem toNat_keyNumber (k : Fin 16) : (BitVec.ofNat 8 k.val).toNat = k.val :=
  Nat.mod_eq_of_lt (k.isLt.trans (by decide))

/-- Settles O54: the lowest pressed key is the first of the scan, and with none pressed the scan finds none. -/
theorem keyWaitLoadsTheLowestKeyOrRewinds : Obligations.KeyWaitLoadsTheLowestKeyOrRewinds := by
  refine fun s x => ⟨toNat_formatX_familyF x 0x0A, fun k hk hlowest => ?_, fun hnone => ?_⟩
  · obtain ⟨hload, hframe⟩ := s.setV_load x (BitVec.ofNat 8 k.val)
    exact ⟨_, exec_ldVxK_of_pressed x (firstKey_eq_some hk hlowest), by rw [hload, toNat_keyNumber],
      hframe⟩
  · exact ⟨_, exec_ldVxK_of_none x (firstKey_eq_none.2 hnone), rfl, .setPc s _ (by simp)⟩

/-! ## The timers -/

/-- Settles O53: one write each, of V[x], DT or ST. -/
theorem timerTransfers : Obligations.TimerTransfers := fun s x =>
  ⟨toNat_formatX_familyF x 0x07, toNat_formatX_familyF x 0x15, toNat_formatX_familyF x 0x18,
    ⟨_, rfl, s.setV_load x s.DT⟩, ⟨_, rfl, rfl, .setDT s (s.getV x) (by simp)⟩,
    ⟨_, rfl, rfl, .setST s (s.getV x) (by simp)⟩⟩

end Sys2Proof.Machine
end

section
/-! SUPPORT. Events: a meaning leaves `log` and `halted` alone or does nothing but raise the one event of its instruction,
and a step adds at most that event, the report of an unrecognized word or a fetch fault (60_exceptions.md R300 to R312). -/

namespace Sys2Proof.Machine

/-! ## The meanings -/

theorem ChangesOnly.log_halted {ps : List Part} {s t : State} (h : ChangesOnly ps s t) (he : Part.events ∉ ps) :
    t.log = s.log ∧ t.halted = s.halted := by
  obtain ⟨-, -, -, -, -, -, -, -, -, -, hev, -⟩ := h
  exact hev he

/-- Between `s` and `t` the instruction `i` raised no event, or raised its own and did nothing else (R302, R310). -/
def QuietOrRaises (i : Instr) (s t : State) : Prop :=
  (t.log = s.log ∧ t.halted = s.halted) ∨
  ∃ (c : EventCode) (info : Option Nat), mayRaise i = some c ∧ t = s.raise c (encode i) info

theorem QuietOrRaises.raise {i : Instr} {c : EventCode} (hi : mayRaise i = some c) (s : State) (info : Option Nat) :
    QuietOrRaises i s (s.raise c (encode i) info) := .inr ⟨c, info, hi, rfl⟩

theorem QuietOrRaises.storeAtI {i : Instr} (hi : mayRaise i = some .memRangeData) (s : State) (bs : List Byte) :
    QuietOrRaises i s (s.storeAtI i bs) := by
  unfold State.storeAtI
  split
  · exact .raise hi s _
  · exact .inl ⟨rfl, rfl⟩

theorem QuietOrRaises.skipOnKey {i : Instr} (hi : mayRaise i = some .keyRange) (s : State) (x : Reg) (pressed : Bool) :
    QuietOrRaises i s (s.skipOnKey i x pressed) := by
  unfold State.skipOnKey
  split
  · exact .inl ⟨rfl, rfl⟩
  · exact .raise hi s _

/-- The outcome of the instruction `i` is a next state related to the start state by `QuietOrRaises`. -/
def NextQuietOrRaises (i : Instr) (s : State) (o : Host.Outcome State Fault Refusal) : Prop :=
  ∃ t, o = .next t ∧ QuietOrRaises i s t

theorem execRet_quietOrRaises (s : State) : NextQuietOrRaises .ret s (execRet s) := by
  unfold execRet
  split
  · exact ⟨_, rfl, .raise rfl s _⟩
  · exact ⟨_, rfl, .inl ⟨rfl, rfl⟩⟩

theorem execCall_quietOrRaises (nnn : Addr12) (s : State) : NextQuietOrRaises (.call nnn) s (execCall nnn s) := by
  unfold execCall
  split
  · exact ⟨_, rfl, .raise rfl s _⟩
  · have hpush : ChangesOnly [.sp, .entries] s (s.push s.pc) := .push s s.pc (by decide) (by decide)
    exact ⟨_, rfl, .inl (hpush.log_halted (by decide))⟩

theorem execDrw_quietOrRaises (x y : Reg) (n : Nibble) (s : State) :
    NextQuietOrRaises (.drw x y n) s (execDrw x y n s) := by
  unfold execDrw
  split
  · exact ⟨_, rfl, .raise rfl s _⟩
  · exact ⟨_, rfl, .inl ⟨rfl, rfl⟩⟩

theorem execLdVxMem_quietOrRaises (x : Reg) (s : State) : NextQuietOrRaises (.ldVxMem x) s (execLdVxMem x s) := by
  unfold execLdVxMem
  split
  · exact ⟨_, rfl, .raise rfl s _⟩
  · exact ⟨_, rfl, .inl ⟨rfl, rfl⟩⟩

/-- An instruction to which R302 gives no event is quiet, for its frame leaves the events out. -/
theorem exec_quiet {i : Instr} (hi : Part.events ∉ writes i) (s : State) : NextQuietOrRaises i s (exec i s) := by
  obtain ⟨t, ht, hframe⟩ := exec_changesOnly i s
  exact ⟨t, ht, .inl (hframe.log_halted hi)⟩

/-- The eight instructions with an event, by the operation that checks for it; the others have none. -/
theorem exec_quietOrRaises (i : Instr) (s : State) : NextQuietOrRaises i s (exec i s) := by
  cases i with
  | ret => exact execRet_quietOrRaises s
  | call nnn => exact execCall_quietOrRaises nnn s
  | drw x y n => exact execDrw_quietOrRaises x y n s
  | ldVxMem x => exact execLdVxMem_quietOrRaises x s
  | ldB | ldMemVx => exact ⟨_, rfl, .storeAtI rfl s _⟩
  | skp | sknp => exact ⟨_, rfl, .skipOnKey rfl s _ _⟩
  | _ => exact exec_quiet (by simp [writes]) s

theorem quietOrRaises_of_exec {i : Instr} {s t : State} (h : exec i s = .next t) : QuietOrRaises i s t := by
  obtain ⟨t', ht', hq⟩ := exec_quietOrRaises i s
  obtain rfl : t' = t := by simpa [ht'] using h
  exact hq

/-- Settles O22: the log and the fault state are as they were, or as raising the instruction's event leaves them. -/
theorem instructionsRaiseOnlyTheirEvent : Obligations.InstructionsRaiseOnlyTheirEvent := by
  intro i s t h
  obtain hquiet | ⟨c, info, hc, rfl⟩ := quietOrRaises_of_exec h
  · exact .inl hquiet
  · exact .inr ⟨c, info, hc, rfl, rfl⟩

/-! ## The step -/

/-- Settles O23: raising an event is all an instruction does if it raises one, and all a failed fetch does. -/
theorem eventsHaveNoPartialEffect : Obligations.EventsHaveNoPartialEffect := by
  refine ⟨fun i s t h hlog => ?_, fun s t _ hf h => ?_⟩
  · obtain ⟨hquiet, -⟩ | ⟨c, info, -, rfl⟩ := quietOrRaises_of_exec h
    · exact absurd hquiet hlog
    · exact ⟨s.handlerEvent c (encode i) info, rfl⟩
  · obtain ⟨-, ⟨-, c, hc, rfl⟩ | ⟨hf', -⟩ | ⟨hf', -⟩⟩ := step_cases h
    · exact ⟨_, hc, s.hostActs.takeEvent_fault hc⟩
    · exact absurd hf' hf
    · exact absurd hf' hf

/-- Settles O24: a fetch fault and an unrecognized word add one event, an instruction at most one; the host's actions and
the fetch leave the log alone. -/
theorem stepAppendsAtMostOneEvent : Obligations.StepAppendsAtMostOneEvent := by
  intro s t h
  obtain ⟨-, ⟨-, c, -, rfl⟩ | ⟨-, i, -, hexec⟩ | ⟨-, r, -, rfl⟩⟩ := step_cases h
  · exact .inr ⟨_, rfl⟩
  · obtain ⟨hlog, -⟩ | ⟨c, info, -, rfl⟩ := quietOrRaises_of_exec hexec
    · exact .inl hlog
    · exact .inr ⟨_, rfl⟩
  · exact .inr ⟨_, rfl⟩

theorem exec_next (i : Instr) (s : State) : ∃ t, exec i s = .next t := by
  obtain ⟨t, ht, -⟩ := exec_changesOnly i s
  exact ⟨t, ht⟩

theorem dispatch_next (w : Word) (s : State) : ∃ t, dispatch w s = .next t := by
  unfold dispatch
  split
  · exact exec_next _ s
  · exact ⟨_, rfl⟩

/-- Settles O12: a running engine dispatches the word it fetches, or takes a fetch fault. -/
theorem runningEngineAlwaysSteps : Obligations.RunningEngineAlwaysSteps := by
  refine ⟨exec_next, fun s hr => ?_⟩
  by_cases hf : Fetchable s
  · rw [step_of_fetchable hr hf]
    exact dispatch_next _ _
  · obtain ⟨c, hstep, -⟩ := step_of_not_fetchable hr hf
    exact ⟨_, hstep⟩

/-! ## Fetch faults -/

/-- A fetch fault is `HaltsWith`. -/
theorem HaltsWith.raiseFetch (s : State) {c : EventCode} (hc : c.isFault = true) :
    HaltsWith { code := c, pc := s.pc, instr := none, info := none } s (s.raiseFetch c) :=
  ⟨rfl, if_pos hc, by simp [ChangesOnly]⟩

/-- Settles O8: of the two fetch faults, the one of a pc below 0x200. -/
theorem fetchBelowRomHalts : Obligations.FetchBelowRomHalts := by
  intro s hr hpc
  have hf : ¬ Fetchable s := fun h => Nat.not_lt.2 h.1 hpc
  obtain ⟨c, hstep, hc, ⟨rfl, -⟩ | ⟨-, hhigh⟩⟩ := step_of_not_fetchable hr hf
  · exact ⟨_, hstep, .raiseFetch s.hostActs hc⟩
  · omega

/-- Settles O9: of the two fetch faults, the one of a pc above 0xFFE. -/
theorem fetchBeyondMemoryHalts : Obligations.FetchBeyondMemoryHalts := by
  intro s hr hpc
  have hf : ¬ Fetchable s := fun h => Nat.not_le.2 h.2 hpc
  obtain ⟨c, hstep, hc, ⟨-, hlow⟩ | ⟨rfl, -⟩⟩ := step_of_not_fetchable hr hf
  · rw [romBase_eq] at hlow
    omega
  · exact ⟨_, hstep, .raiseFetch s.hostActs hc⟩

end Sys2Proof.Machine
end

section
/-! SUPPORT. The host's actions: the timer tick and the ROM load (60_exceptions.md R316, R317, R325;
70_reset_and_hazards.md R342, R343). -/

namespace Sys2Proof.Machine

/-! ## Ticks -/

/-- Settles O16: each timer counts down by `tickDown`, and no other part is written. -/
theorem tickCountsTheTimersDown : Obligations.TickCountsTheTimersDown := fun s =>
  ⟨tickDown_toNat s.DT, tickDown_toNat s.ST, .tick s (by decide) (by decide)⟩

theorem tickDownBy_zero (t : Byte) : tickDownBy 0 t = t := BitVec.eq_of_toNat_eq (tickDownBy_toNat 0 t)

theorem tickDownBy_succ (n : Nat) (t : Byte) : tickDownBy (n + 1) t = tickDown (tickDownBy n t) := by
  apply BitVec.eq_of_toNat_eq
  rw [tickDown_toNat, tickDownBy_toNat, tickDownBy_toNat, Nat.sub_add_eq]

theorem State.ticks_zero (s : State) : s.ticks 0 = s := by rw [ticks, tickDownBy_zero, tickDownBy_zero]

theorem State.ticks_succ (s : State) (n : Nat) : s.ticks (n + 1) = (s.ticks n).tick := by
  rw [ticks, tickDownBy_succ, tickDownBy_succ]
  rfl

/-- Settles O17: by induction on the number of ticks, the last tick taken off. -/
theorem ticksAtOnceAreSingleTicks : Obligations.TicksAtOnceAreSingleTicks := by
  intro n s
  induction n with
  | zero => exact s.ticks_zero
  | succ n ih => rw [Function.iterate_succ_apply', ← ih, s.ticks_succ]

/-! ## The ROM load -/

theorem State.loadRom_eq_some {s t : State} {rom : List Byte} :
    s.loadRom rom = some t ↔ rom.length ≤ romMax ∧ s.setM (s.M.storeBytes romBase rom) = t := by
  simp [loadRom, romWellFormed]

theorem Inv.tick {s : State} (h : Inv s) : Inv s.tick := h.of_same rfl rfl rfl

/-- Settles O20: a tick touches neither memory nor the log, and an image that is loaded fits into memory. -/
theorem hostActionsKeepTheInvariant : Obligations.HostActionsKeepTheInvariant := by
  refine fun s h => ⟨h.tick, fun rom t hload => ?_⟩
  obtain ⟨hlen, rfl⟩ := State.loadRom_eq_some.1 hload
  have hfit : romBase + rom.length ≤ memSize := by
    rw [romMax_eq] at hlen
    rw [romBase_eq, memSize_eq]
    omega
  exact h.setM (Memory.storeBytes_wf rom h.1 hfit)

end Sys2Proof.Machine
end

section
/-! SUPPORT. The state that the load of an image leaves (70_reset_and_hazards.md R340, R342, R343, R346), and a cycle of a
parked state (R352). -/

namespace Sys2Proof.Machine

/-! ## The state after a ROM load -/

theorem State.loadRom_eq_none {s : State} {rom : List Byte} : s.loadRom rom = none ↔ romMax < rom.length := by
  simp [loadRom, romWellFormed]

section
variable {s t : State} {rom : List Byte} (hload : s.loadRom rom = some t)
include hload

theorem State.loadRom_frame : ChangesOnly [.memory] s t := by
  obtain ⟨-, rfl⟩ := loadRom_eq_some.1 hload
  exact .setM s _ (by simp)

variable (hwf : s.M.wf)
include hwf

theorem State.read_loadRom (a : Nat) : t.M.read a =
    if romBase ≤ a ∧ a < romBase + rom.length then rom.getD (a - romBase) 0 else s.M.read a := by
  obtain ⟨hlen, rfl⟩ := loadRom_eq_some.1 hload
  have hfit : romBase + rom.length ≤ memSize := by
    rw [romMax_eq] at hlen
    rw [romBase_eq, memSize_eq]
    omega
  exact Memory.read_storeBytes rom hwf hfit a

theorem State.read_loadRom_image {i : Nat} (hi : i < rom.length) : t.M.read (romBase + i) = rom.getD i 0 := by
  rw [read_loadRom hload hwf, if_pos (by omega), Nat.add_sub_cancel_left]

theorem State.read_loadRom_outside {a : Nat} (ha : a < romBase ∨ romBase + rom.length ≤ a) :
    t.M.read a = s.M.read a := by
  rw [read_loadRom hload hwf, if_neg (by omega)]

/-- A launch state of the empty image becomes one of the image that is loaded: the load stays clear of the font. -/
theorem Launch.loadRom (h : Launch [] s) : Launch rom t := by
  obtain ⟨-, hpc, hsp, hDT, hST, hfont, -, hlog, hhalted⟩ := h
  have hkept : ∀ a, a < 80 → t.M.read a = font.getD a 0 := fun a ha =>
    (State.read_loadRom_outside hload hwf (.inl (by rw [romBase_eq]; omega))).trans (hfont a ha)
  have himage : ∀ i, i < rom.length → t.M.read (romBase + i) = rom.getD i 0 := fun _ =>
    State.read_loadRom_image hload hwf
  obtain ⟨hlen, rfl⟩ := State.loadRom_eq_some.1 hload
  exact ⟨hlen, hpc, hsp, hDT, hST, hkept, himage, hlog, hhalted⟩

end

/-- Settles O14: the bound of the load is the bound of the statement, and the stored image takes up 0x200 on alone. -/
theorem romLoadCopiesTheImage : Obligations.RomLoadCopiesTheImage := by
  refine fun s rom hwf => ⟨fun hlen => ?_, State.loadRom_eq_none.2⟩
  have hload := State.loadRom_eq_some (s := s).2 ⟨hlen, rfl⟩
  exact ⟨_, hload, fun _ => State.read_loadRom_image hload hwf, fun _ => State.read_loadRom_outside hload hwf,
    State.loadRom_frame hload⟩

theorem reset_launch : Launch [] State.reset := by
  obtain ⟨hpc, hsp, hDT, hST, hfont, hlog, hhalted⟩ := resetLeavesTheSpecsValues
  exact ⟨Nat.zero_le _, hpc, hsp, hDT, hST, hfont, fun _ hi => absurd hi (Nat.not_lt_zero _), hlog, hhalted⟩

/-- Settles O15: the reset state is a launch state of the empty image, and its memory is canonical. -/
theorem loadedResetStateIsALaunchState : Obligations.LoadedResetStateIsALaunchState := by
  intro rom hlen
  have hload := State.loadRom_eq_some (s := State.reset).2 ⟨hlen, rfl⟩
  exact ⟨_, hload, reset_launch.loadRom hload Memory.wf_nil⟩

/-! ## A parked state -/

/-- Whether a state is parked is a matter of pc, memory and the fault state. -/
theorem Parked.of_same {s t : State} (h : Parked s) (hpc : t.pc = s.pc) (hM : t.M = s.M) (hhalted : t.halted = s.halted) :
    Parked t := by
  simpa only [Parked, Running, Fetchable, State.wordAtPc, hpc, hM, hhalted] using h

/-- The jump of a parked state takes back the advance of pc by the fetch. -/
theorem step_of_parked {s : State} (h : Parked s) :
    step s = .next ((s.hostActs.afterFetch s.nextInput.keys s.nextInput.rnd).setPc s.pc) := by
  obtain ⟨hr, hf, nnn, hword, hpc⟩ := h
  have hdecode : decode s.wordAtPc = .ok (.jp nnn) := hword ▸ decodeOfEncodeIsTheInstruction (.jp nnn)
  rw [step_of_fetchable hr hf, dispatch_of_decode hdecode, ← hpc]
  rfl

/-- Settles O25: with pc put back, the cycle has written the keypad snapshot and the random byte alone. -/
theorem parkedStateStaysParked : Obligations.ParkedStateStaysParked := fun _ h =>
  ⟨_, step_of_parked h, h.of_same rfl rfl rfl, rfl, by simp [ChangesOnly]⟩

end Sys2Proof.Machine
end
